-- ==== Sys2Proof/Word.lean ====
section
/-! DEFINITION. The machine's one word: an unsigned 8-bit value (R7, R9), and the reduction modulo 256 of the
spec's notation (00_scope.md section 4). -/

namespace Sys2Proof

/-- A register value, a memory cell, an immediate or an address held in a register: 0 to 255, unsigned. -/
abbrev Byte := BitVec 8

/-- `mod256(v)` of the notation: the exact result narrowed to the word. -/
def mod256 (v : Nat) : Byte := BitVec.ofNat 8 v

end Sys2Proof
end

