-- ==== Sys2Proof/Config.lean ====
section
/-! DEFINITION. The implementation parameters of 00_scope.md section 3. Each has one fixed value on this hardware,
so nothing here is opaque: the spec leaves no value of an instruction free. MAX_CYCLES (R13) is an argument of the
host's run (Machine/Run.lean), not a constant. -/

namespace Sys2Proof.Config

/-- `MEM_SIZE` (R7): how many cells memory has; the addresses are 0 to 255. -/
abbrev memSize : Nat := 256

/-- `NREGS` (R8): how many general-purpose registers there are. -/
abbrev numRegs : Nat := 8

/-- `SP_RESET` (R10): the stack pointer's reset value. -/
abbrev spReset : Byte := 244

/-- `NOT_WIDTH` (R14, conflict C1): NOT is decoded with a width of three bytes. -/
abbrev notWidth : Nat := 3

/-- What a cell that memory does not list reads as: memory is zero-filled at reset (R50). -/
abbrev unlistedByte : Byte := 0

end Sys2Proof.Config
end

