-- ==== Sys2Proof/Syntax.lean ====
section
/-! DEFINITION. The twenty instructions of the opcode map (R75), one constructor per row of spec/opcode_table.json
in the table's order, with the operands its format gives it (R71). -/

namespace Sys2Proof

/-- The closed instruction set (R2). A register operand `ra` or `rb` is the number in its operand byte (R72). Only 0 to 7
name a register; an instruction that uses another number raises RegisterOutOfRange (R21, R22). -/
inductive Instr where
  /-- LDI, R101. -/
  | ldi (ra : Nat) (imm : Byte)
  /-- PRN, R160. -/
  | prn (ra : Nat)
  /-- HLT, R141. -/
  | hlt
  /-- MUL, R112. -/
  | mul (ra rb : Nat)
  /-- ADD, R111. -/
  | add (ra rb : Nat)
  /-- PUSH, R102. -/
  | push (ra : Nat)
  /-- POP, R103. -/
  | pop (ra : Nat)
  /-- CALL, R142. -/
  | call (ra : Nat)
  /-- RET, R143. -/
  | ret
  /-- CMP, R113. -/
  | cmp (ra rb : Nat)
  /-- JMP, R145. -/
  | jmp (ra : Nat)
  /-- JEQ, R146. -/
  | jeq (ra : Nat)
  /-- JNE, R147. -/
  | jne (ra : Nat)
  /-- AND, R114. -/
  | and (ra rb : Nat)
  /-- OR, R115. -/
  | or (ra rb : Nat)
  /-- XOR, R116. -/
  | xor (ra rb : Nat)
  /-- NOT, R117; `pad` is the third byte, fetched and ignored (R71, C1). -/
  | not (ra : Nat) (pad : Byte)
  /-- SHL, R118. -/
  | shl (ra rb : Nat)
  /-- SHR, R119. -/
  | shr (ra rb : Nat)
  /-- MOD, R120. -/
  | mod (ra rb : Nat)
  deriving DecidableEq, Repr

/-- Why the decoder rejects a list of bytes. -/
inductive DecodeError where
  /-- The opcode byte is none of the twenty (R77). -/
  | unknownInstruction (opcode : Byte)
  /-- The opcode is legal and the list ends before its operand bytes do (R74). -/
  | missingOperand (opcode : Byte)
  /-- There is no opcode byte at all. -/
  | noOpcode
  deriving DecidableEq, Repr

end Sys2Proof
end

