-- ==== Sys2Proof/Machine/State.lean ====
section
/-! DEFINITION. The state of the core, the tuple of R36 and nothing else, as plain data; the reasons a run can end in
an error halt; and the state after reset (R200). -/

namespace Sys2Proof.Machine

/-- The flags register `FL` (R28): three independent bits, written only by CMP. -/
structure Flags where
  /-- `FL.E`. -/
  equal : Bool
  /-- `FL.G`. -/
  greater : Bool
  /-- `FL.L`. -/
  less : Bool
  deriving DecidableEq, Repr

/-- The Executor's run state (R31). -/
inductive RunState where
  | running
  | halted
  deriving DecidableEq, Repr

/-- The error kinds that can be recorded as a halt cause (R32, R170). -/
inductive ErrorKind where
  /-- The fetched opcode byte is not in the table (R171). -/
  | unknownInstruction
  /-- MOD with a zero divisor (R172). -/
  | arithmeticError
  /-- An access at an address above 255; only an operand fetch forms one (R173). -/
  | addressOutOfRange
  /-- A register read or write with an index above 7 (R174). -/
  | registerOutOfRange
  /-- The ALU's internal guard; no step produces it (R121, R175). -/
  | unsupportedOperation
  deriving DecidableEq, Repr

/-- The model's faults: NONE. Every runtime error of the spec is a halt, which is a next state (R177; log 3), so no
step answers a fault. -/
inductive Fault where
  deriving DecidableEq, Repr

/-- The model's refusals. -/
inductive Refusal where
  /-- Raised by an arm of `exec` whose instruction has no meaning yet; safe. No arm raises it in this model. -/
  | notModelled (mnemonic : String)
  deriving DecidableEq, Repr

/-- Memory as the cells that do not read as `Config.unlistedByte`, their addresses strictly rising (`Memory.wf`). -/
abbrev Memory := List Host.Cell

/-- The complete state of the core (R36). -/
structure State where
  /-- `Mem[0..255]` (R50). -/
  mem : Memory
  /-- `x[0]` to `x[7]` (R20); `x[7]` is the stack pointer (R23). -/
  regs : Vector Byte 8
  /-- The program counter (R25). -/
  pc : Byte
  /-- The flags register (R28). -/
  flags : Flags
  /-- The run state (R31). -/
  run : RunState
  /-- The halt cause (R32); `none` is the cause NONE. -/
  cause : Option ErrorKind
  /-- The console output so far, oldest value first (R33). -/
  out : List Byte
  /-- Iterations begun since reset (R34). -/
  cycles : Nat
  deriving DecidableEq, Repr

/-- The machine right after reset (R200). -/
def State.reset : State where
  mem := []
  regs := #v[0, 0, 0, 0, 0, 0, 0, Config.spReset]
  pc := 0
  flags := { equal := false, greater := false, less := false }
  run := .running
  cause := none
  out := []
  cycles := 0

end Sys2Proof.Machine
end

