-- ==== Sys2Proof/Machine/Ops.lean ====
section
/-! DEFINITION. The named operations on the state: one update per field, the memory primitives (R52, R53), the stack
pointer's steps (R100), the console (R161), the precise error halt that every runtime error takes (R177) and the
clean halt beside it, and the end of an iteration (R78, R79, R80). There is no return from an error: Halted is
terminal, and only reset leaves it (R181). -/

namespace Sys2Proof.Machine

/-! One update per field. -/

def withMem (m : Memory) (s : State) : State := { s with mem := m }
def withRegs (x : Vector Byte 8) (s : State) : State := { s with regs := x }
def withPc (a : Byte) (s : State) : State := { s with pc := a }
def withFlags (f : Flags) (s : State) : State := { s with flags := f }
def withRun (r : RunState) (s : State) : State := { s with run := r }
def withCause (c : Option ErrorKind) (s : State) : State := { s with cause := c }
def withOut (o : List Byte) (s : State) : State := { s with out := o }
def withCycles (n : Nat) (s : State) : State := { s with cycles := n }

/-! Memory. -/

/-- The canonical form of memory: addresses strictly rising, every address in the address space (R50), no entry equal
to what an unlisted address reads as. -/
abbrev Memory.wf (m : Memory) : Prop :=
  m.Pairwise (fun c d => c.1 < d.1) ∧ ∀ c ∈ m, c.1 < Config.memSize ∧ c.2 ≠ Config.unlistedByte

/-- The byte at an address. -/
def readByte : Memory → Nat → Byte
  | [], _ => Config.unlistedByte
  | (b, w) :: m, a => if b = a then w else readByte m a

/-- Memory with no entry at an address. -/
def eraseByte (m : Memory) (a : Nat) : Memory := m.filter fun c => !decide (c.1 = a)

/-- Puts an entry before the first entry of a higher address. -/
def insertByte : Memory → Nat → Byte → Memory
  | [], a, v => [(a, v)]
  | (b, w) :: m, a, v => if a < b then (a, v) :: (b, w) :: m else (b, w) :: insertByte m a v

/-- Stores a byte and keeps the canonical form: a byte equal to what an unlisted address reads as removes the entry. -/
def writeByte (m : Memory) (a : Nat) (v : Byte) : Memory :=
  if v = Config.unlistedByte then eraseByte m a else insertByte (eraseByte m a) a v

/-- `MemRead(a, 1)` (R52). -/
def memRead (a : Nat) (s : State) : Except ErrorKind Byte :=
  if a < Config.memSize then .ok (readByte s.mem a) else .error .addressOutOfRange

/-- `MemWrite(a, 1, v)` (R53): the same range check, and the value stored is reduced to 8 bits. -/
def memWrite (a v : Nat) (s : State) : Except ErrorKind State :=
  if a < Config.memSize then .ok (withMem (writeByte s.mem a (mod256 v)) s) else .error .addressOutOfRange

/-! The stack (R100): no limit, no overflow or underflow check, SP wraps modulo 256. -/

/-- `SP`, which is `x[7]` (R23). -/
def sp (s : State) : Byte := s.regs[7]

/-- The address `SP` names. -/
def topAddress (s : State) : Nat := (sp s).toNat

/-- `x[7] <- mod256(x[7] - 1)`. -/
def decSp (s : State) : State := withRegs (s.regs.set 7 (mod256 ((sp s).toNat + 255))) s

/-- `x[7] <- mod256(x[7] + 1)`. -/
def incSp (s : State) : State := withRegs (s.regs.set 7 (mod256 ((sp s).toNat + 1))) s

/-- `MemRead(x[7], 1)`. -/
def loadTop (s : State) : Except ErrorKind Byte := memRead (topAddress s) s

/-- `MemWrite(x[7], 1, v)`. -/
def storeTop (v : Nat) (s : State) : Except ErrorKind State := memWrite (topAddress s) v s

/-! The console. -/

/-- `emit(v)`: appends a value to the output (R161). -/
def emit (v : Byte) (s : State) : State := withOut (s.out ++ [v]) s

/-! Halting and completing. -/

/-- Taking a runtime error (R177, R78): `run <- Halted; cause <- E`, and nothing else changes. The pc is left at the
instruction that raised it (R180). -/
def haltWith (e : ErrorKind) (s : State) : State := withCause (some e) (withRun .halted s)

/-- The clean halt of HLT (R141): `run <- Halted; cause <- NONE`. -/
def haltClean (s : State) : State := withCause none (withRun .halted s)

/-- The address `len` bytes after the pc, reduced modulo 256 (R80). -/
def nextPc (len : Nat) (s : State) : Byte := mod256 (s.pc.toNat + len)

/-- The sequential advance (R80). -/
def advancePc (len : Nat) (s : State) : State := withPc (nextPc len s) s

/-- Precise completion (R79): the writes of a rule that raised nothing are committed, and a rule that raised an error
halts the machine in the state `s` from before the instruction. -/
def conclude (s : State) : Except ErrorKind State → Host.Outcome State Fault Refusal
  | .ok t => .next t
  | .error e => .next (haltWith e s)

/-- An iteration begun in Running counts (R34, R78). -/
def countCycle (s : State) : State := withCycles (s.cycles + 1) s

end Sys2Proof.Machine
end

