-- ==== Sys2Proof/Machine/Flags.lean ====
section
/-! DEFINITION. The flags: CMP's computation of all three (R113, R28), the two branch conditions that read them (R146,
R147), and the byte a host status read shows (R30). No other instruction touches a flag (R122). -/

namespace Sys2Proof.Machine

/-- CMP of two unsigned values: exactly one flag set, the others cleared (R113). -/
def compareFlags (va vb : Byte) : Flags :=
  if va = vb then { equal := true, greater := false, less := false }
  else if vb.toNat < va.toNat then { equal := false, greater := true, less := false }
  else { equal := false, greater := false, less := true }

/-- JEQ is taken when `FL.E = 1` (R146). -/
def jeqTaken (s : State) : Bool := s.flags.equal

/-- JNE is taken when `FL.E = 0` (R147). -/
def jneTaken (s : State) : Bool := !s.flags.equal

/-- `FLbyte = 0b00000LGE` (R30). -/
def flagsByte (f : Flags) : Byte :=
  mod256 (f.equal.toNat + 2 * f.greater.toNat + 4 * f.less.toNat)

end Sys2Proof.Machine
end

