-- ==== Sys2Proof/WellFormed.lean ====
section
/-! DEFINITION. Which terms of `Instr` stand for an instruction the hardware can be given: a register operand is one
operand byte (R70, R72), so its number is below 256. A number from 8 to 255 is encodable, and what it does is the
instruction's meaning. Immediates and NOT's pad are bytes by type. -/

namespace Sys2Proof

/-- The number fits the operand byte. -/
def fitsOperand (r : Nat) : Bool := decide (r < 256)

/-- Every register operand fits its byte. -/
def Instr.wf : Instr → Bool
  | .ldi ra _ => fitsOperand ra
  | .prn ra => fitsOperand ra
  | .hlt => true
  | .mul ra rb => fitsOperand ra && fitsOperand rb
  | .add ra rb => fitsOperand ra && fitsOperand rb
  | .push ra => fitsOperand ra
  | .pop ra => fitsOperand ra
  | .call ra => fitsOperand ra
  | .ret => true
  | .cmp ra rb => fitsOperand ra && fitsOperand rb
  | .jmp ra => fitsOperand ra
  | .jeq ra => fitsOperand ra
  | .jne ra => fitsOperand ra
  | .and ra rb => fitsOperand ra && fitsOperand rb
  | .or ra rb => fitsOperand ra && fitsOperand rb
  | .xor ra rb => fitsOperand ra && fitsOperand rb
  | .not ra _ => fitsOperand ra
  | .shl ra rb => fitsOperand ra && fitsOperand rb
  | .shr ra rb => fitsOperand ra && fitsOperand rb
  | .mod ra rb => fitsOperand ra && fitsOperand rb

/-- `Instr.wf` as a proposition. -/
abbrev Instr.WellFormed (i : Instr) : Prop := i.wf = true

end Sys2Proof
end

