-- ==== Sys2Proof/Decode.lean ====
section
/-! DEFINITION. The decoder, an exhaustive match on the whole opcode byte with one rejecting arm (R81), total on any
bytes; the encoder, written from the same opcode map (R75); and the reading of a word as spec/opcode_table.json
numbers its bits. -/

namespace Sys2Proof

/-- A row of the opcode map seen from its opcode byte: its format (R71) and the instruction it makes of its operands. -/
inductive OpForm where
  /-- Format Z: no operand byte. -/
  | z (i : Instr)
  /-- Format R: one register operand. -/
  | r (mk : Nat → Instr)
  /-- Format RI: a register operand and an immediate. -/
  | ri (mk : Nat → Byte → Instr)
  /-- Format RR: two register operands. -/
  | rr (mk : Nat → Nat → Instr)
  /-- Format RX: a register operand and a byte that is fetched and ignored. -/
  | rx (mk : Nat → Byte → Instr)

/-- The instruction's length in bytes, opcode included (R71). NOT's format RX is three bytes long (C1). -/
def formLength : OpForm → Nat
  | .z _ => 1
  | .r _ => 2
  | .ri _ => 3
  | .rr _ => 3
  | .rx _ => Config.notWidth

/-- The instruction a row makes of its operand bytes; a byte beyond the row's length is not looked at. -/
def buildInstr (f : OpForm) (b1 b2 : Byte) : Instr :=
  match f with
  | .z i => i
  | .r mk => mk b1.toNat
  | .ri mk => mk b1.toNat b2
  | .rr mk => mk b1.toNat b2.toNat
  | .rx mk => mk b1.toNat b2

/-- The opcode map of R75: twenty rows, every other byte illegal (R77). -/
def opForm (op : Byte) : Option OpForm :=
  match op.toNat with
  | 0x82 => some (.ri .ldi)
  | 0x47 => some (.r .prn)
  | 0x01 => some (.z .hlt)
  | 0xA2 => some (.rr .mul)
  | 0xA0 => some (.rr .add)
  | 0x45 => some (.r .push)
  | 0x46 => some (.r .pop)
  | 0x50 => some (.r .call)
  | 0x11 => some (.z .ret)
  | 0xA7 => some (.rr .cmp)
  | 0x54 => some (.r .jmp)
  | 0x55 => some (.r .jeq)
  | 0x56 => some (.r .jne)
  | 0xA8 => some (.rr .and)
  | 0xAA => some (.rr .or)
  | 0xAB => some (.rr .xor)
  | 0x69 => some (.rx .not)
  | 0xAC => some (.rr .shl)
  | 0xAD => some (.rr .shr)
  | 0xA4 => some (.rr .mod)
  | _ => none

/-- Length decode from the opcode byte alone (R74); an illegal opcode has no length. -/
def opLength (op : Byte) : Option Nat := (opForm op).map formLength

/-- Decodes the instruction at the front of a list of bytes and answers it with the bytes after it. -/
def decode : List Byte → Except DecodeError (Instr × List Byte)
  | [] => .error .noOpcode
  | op :: rest =>
    match opForm op with
    | none => .error (.unknownInstruction op)
    | some f =>
      if rest.length + 1 < formLength f then .error (.missingOperand op)
      else .ok (buildInstr f (rest.getD 0 0) (rest.getD 1 0), rest.drop (formLength f - 1))

/-- The opcode byte of an instruction (R75). -/
def opcodeOf : Instr → Byte
  | .ldi _ _ => 0x82
  | .prn _ => 0x47
  | .hlt => 0x01
  | .mul _ _ => 0xA2
  | .add _ _ => 0xA0
  | .push _ => 0x45
  | .pop _ => 0x46
  | .call _ => 0x50
  | .ret => 0x11
  | .cmp _ _ => 0xA7
  | .jmp _ => 0x54
  | .jeq _ => 0x55
  | .jne _ => 0x56
  | .and _ _ => 0xA8
  | .or _ _ => 0xAA
  | .xor _ _ => 0xAB
  | .not _ _ => 0x69
  | .shl _ _ => 0xAC
  | .shr _ _ => 0xAD
  | .mod _ _ => 0xA4

/-- The operand byte that holds a register number (R72). -/
def operandByte (r : Nat) : Byte := mod256 r

/-- The operand bytes of an instruction, in encoding order (R56, R71). -/
def operandsOf : Instr → List Byte
  | .ldi ra imm => [operandByte ra, imm]
  | .prn ra => [operandByte ra]
  | .hlt => []
  | .mul ra rb => [operandByte ra, operandByte rb]
  | .add ra rb => [operandByte ra, operandByte rb]
  | .push ra => [operandByte ra]
  | .pop ra => [operandByte ra]
  | .call ra => [operandByte ra]
  | .ret => []
  | .cmp ra rb => [operandByte ra, operandByte rb]
  | .jmp ra => [operandByte ra]
  | .jeq ra => [operandByte ra]
  | .jne ra => [operandByte ra]
  | .and ra rb => [operandByte ra, operandByte rb]
  | .or ra rb => [operandByte ra, operandByte rb]
  | .xor ra rb => [operandByte ra, operandByte rb]
  | .not ra pad => [operandByte ra, pad]
  | .shl ra rb => [operandByte ra, operandByte rb]
  | .shr ra rb => [operandByte ra, operandByte rb]
  | .mod ra rb => [operandByte ra, operandByte rb]

/-- The instruction as the bytes memory holds, the opcode at the lowest address (R56). -/
def encode (i : Instr) : List Byte := opcodeOf i :: operandsOf i

/-- The length of the longest instruction, in bytes (R70). -/
def maxLength : Nat := 3

/-- The bytes of an instruction whose bits are `w`, the first byte least significant, with every bit from `nbits` up
zero, as many bytes as the longest instruction has. -/
def tableBytes (nbits w : Nat) : List Byte :=
  let v := w % 2 ^ nbits
  (List.range maxLength).map fun k => mod256 (v / 256 ^ k)

/-- The instruction the decoder reads from an instruction whose bits, as spec/opcode_table.json numbers them, are `w`. -/
def decodeTableWord (nbits w : Nat) : Option Instr :=
  match decode (tableBytes nbits w) with
  | .ok (i, _) => some i
  | .error _ => none

end Sys2Proof
end

