-- ==== Sys2Proof/Machine/Operands.lean ====
section
/-! DEFINITION. The operand forms: reading and writing the register an operand byte names (R21, R22), and fetching an
instruction's bytes (R78). An immediate operand is its byte unchanged (R73). -/

namespace Sys2Proof.Machine

/-- `x[i]` as a read (R21): the index is checked when the register is read. -/
def readReg (i : Nat) (s : State) : Except ErrorKind Byte :=
  if h : i < 8 then .ok s.regs[i] else .error .registerOutOfRange

/-- `x[i] <- v` (R22): the same check, and the value stored is reduced to the register's width. -/
def writeReg (i : Nat) (v : Nat) (s : State) : Except ErrorKind State :=
  if h : i < 8 then .ok (withRegs (s.regs.set i (mod256 v)) s) else .error .registerOutOfRange

/-- `n` bytes from an address upwards, byte by byte. The address is NOT reduced modulo 256 (R78), so a byte above 255
raises AddressOutOfRange. -/
def fetchBytes (s : State) : Nat → Nat → Except ErrorKind (List Byte)
  | _, 0 => .ok []
  | a, n + 1 => do
    let b ← memRead a s
    let bs ← fetchBytes s (a + 1) n
    return b :: bs

/-- The fetch of an iteration (R78): the opcode byte; its length; all its operand bytes; and the instruction they
decode to. The opcode check comes before any operand fetch (R178). -/
def fetch (s : State) : Except ErrorKind Instr := do
  let op ← memRead s.pc.toNat s
  match opLength op with
  | none => throw .unknownInstruction
  | some len =>
    let operands ← fetchBytes s (s.pc.toNat + 1) (len - 1)
    match decode (op :: operands) with
    | .ok (i, _) => return i
    | .error _ => throw .unknownInstruction

/-- Memory with bytes laid at an address and upwards; a byte that would lie above 255 is not placed. -/
def placeBytes : Memory → Nat → List Byte → Memory
  | m, _, [] => m
  | m, a, b :: bs => placeBytes (if a < Config.memSize then writeByte m a b else m) (a + 1) bs

end Sys2Proof.Machine
end

