-- ==== Sys2Proof/Machine/Alu.lean ====
section
/-! DEFINITION. The ALU (R110): pure functions of one or two 8-bit values, the exact result computed over the natural
numbers and then narrowed; the ten ALU instructions (R111 to R120) over one shared shape each for two-register,
one-register and compare forms. Every one advances the pc by three (R80). -/

namespace Sys2Proof.Machine

/-- The one condition the ALU can signal (R110, conflict C2). -/
inductive AluCondition where
  /-- MOD with a zero divisor. -/
  | divisionByZero
  deriving DecidableEq, Repr

/-- What the ALU answers. -/
abbrev AluResult := Except AluCondition Byte

/-- The sum modulo 256 (R111). -/
def aluAdd (va vb : Byte) : AluResult := .ok (mod256 (va.toNat + vb.toNat))

/-- The low 8 bits of the unsigned product (R112). -/
def aluMul (va vb : Byte) : AluResult := .ok (mod256 (va.toNat * vb.toNat))

/-- Bitwise AND (R114). -/
def aluAnd (va vb : Byte) : AluResult := .ok (va &&& vb)

/-- Bitwise inclusive OR (R115). -/
def aluOr (va vb : Byte) : AluResult := .ok (va ||| vb)

/-- Bitwise exclusive OR (R116). -/
def aluXor (va vb : Byte) : AluResult := .ok (va ^^^ vb)

/-- Bitwise complement, `255 - va` (R117). -/
def aluNot (va : Byte) : AluResult := .ok (mod256 (255 - va.toNat))

/-- Logical shift left by the whole 8-bit count; a count of 8 or more gives 0 (R118). -/
def aluShl (va vb : Byte) : AluResult := .ok (mod256 (va.toNat * 2 ^ vb.toNat))

/-- Logical shift right by the whole 8-bit count (R119). -/
def aluShr (va vb : Byte) : AluResult := .ok (mod256 (va.toNat / 2 ^ vb.toNat))

/-- The unsigned remainder; a zero divisor signals DivisionByZero (R120). -/
def aluMod (va vb : Byte) : AluResult :=
  if vb.toNat = 0 then .error .divisionByZero else .ok (mod256 (va.toNat % vb.toNat))

/-- The Executor turns the ALU's condition into the error kind it halts with (R172). -/
def aluError : AluCondition → ErrorKind
  | .divisionByZero => .arithmeticError

/-- The ALU's answer as the Executor sees it. -/
def fromAlu : AluResult → Except ErrorKind Byte
  | .ok v => .ok v
  | .error c => .error (aluError c)

/-- The two-register shape: `ra` is read before `rb` (R178), then the result goes to `x[ra]`. -/
def aluBinary (f : Byte → Byte → AluResult) (ra rb : Nat) (s : State) : Except ErrorKind State := do
  let va ← readReg ra s
  let vb ← readReg rb s
  let v ← fromAlu (f va vb)
  let t ← writeReg ra v.toNat s
  return advancePc 3 t

/-- The one-register shape, in place. -/
def aluUnary (f : Byte → AluResult) (ra : Nat) (s : State) : Except ErrorKind State := do
  let va ← readReg ra s
  let v ← fromAlu (f va)
  let t ← writeReg ra v.toNat s
  return advancePc 3 t

/-- The compare shape: both registers are read and only the flags are written. -/
def aluCompare (f : Byte → Byte → Flags) (ra rb : Nat) (s : State) : Except ErrorKind State := do
  let va ← readReg ra s
  let vb ← readReg rb s
  return advancePc 3 (withFlags (f va vb) s)

/-- MUL (R112). -/
def execMul (ra rb : Nat) (s : State) : Host.Outcome State Fault Refusal :=
  conclude s (aluBinary aluMul ra rb s)

/-- ADD (R111). -/
def execAdd (ra rb : Nat) (s : State) : Host.Outcome State Fault Refusal :=
  conclude s (aluBinary aluAdd ra rb s)

/-- CMP (R113). -/
def execCmp (ra rb : Nat) (s : State) : Host.Outcome State Fault Refusal :=
  conclude s (aluCompare compareFlags ra rb s)

/-- AND (R114). -/
def execAnd (ra rb : Nat) (s : State) : Host.Outcome State Fault Refusal :=
  conclude s (aluBinary aluAnd ra rb s)

/-- OR (R115). -/
def execOr (ra rb : Nat) (s : State) : Host.Outcome State Fault Refusal :=
  conclude s (aluBinary aluOr ra rb s)

/-- XOR (R116). -/
def execXor (ra rb : Nat) (s : State) : Host.Outcome State Fault Refusal :=
  conclude s (aluBinary aluXor ra rb s)

/-- NOT (R117): single-level, on the value the register holds (C6); the pad byte is neither used nor checked. -/
def execNot (ra : Nat) (_pad : Byte) (s : State) : Host.Outcome State Fault Refusal :=
  conclude s (aluUnary aluNot ra s)

/-- SHL (R118): the result is written back (C7). -/
def execShl (ra rb : Nat) (s : State) : Host.Outcome State Fault Refusal :=
  conclude s (aluBinary aluShl ra rb s)

/-- SHR (R119): the result is written back (C7). -/
def execShr (ra rb : Nat) (s : State) : Host.Outcome State Fault Refusal :=
  conclude s (aluBinary aluShr ra rb s)

/-- MOD (R120): the divisor is tested after both register reads (R178). -/
def execMod (ra rb : Nat) (s : State) : Host.Outcome State Fault Refusal :=
  conclude s (aluBinary aluMod ra rb s)

end Sys2Proof.Machine
end

