-- ==== Sys2Proof/Machine/Control.lean ====
section
/-! DEFINITION. The control-transfer and halt instructions: HLT, CALL, RET, JMP, JEQ, JNE (42_control.md). A target is
any 8-bit value (R140). These write the pc themselves, so the sequential advance does not apply to them (R80). -/

namespace Sys2Proof.Machine

/-- Sets the pc to the value of a register (R140, R145). -/
def jumpTo (ra : Nat) (s : State) : Except ErrorKind State := do
  let t ← readReg ra s
  return withPc t s

/-- A branch (R146, R147): the register is read, and its index checked, only when the branch is taken. -/
def branchIf (taken : Bool) (ra : Nat) (s : State) : Except ErrorKind State :=
  if taken then jumpTo ra s else .ok (advancePc 2 s)

/-- CALL's rule (R142): push the address of the next instruction, then read the target. -/
def callRegister (ra : Nat) (s : State) : Except ErrorKind State := do
  let t ← storeTop (s.pc.toNat + 2) (decSp s)
  jumpTo ra t

/-- RET's rule (R143). -/
def returnFromCall (s : State) : Except ErrorKind State := do
  let t ← loadTop s
  return withPc t (incSp s)

/-- HLT (R141): the pc is not advanced. -/
def execHlt (s : State) : Host.Outcome State Fault Refusal :=
  conclude s (.ok (haltClean s))

/-- CALL (R142). -/
def execCall (ra : Nat) (s : State) : Host.Outcome State Fault Refusal :=
  conclude s (callRegister ra s)

/-- RET (R143). -/
def execRet (s : State) : Host.Outcome State Fault Refusal :=
  conclude s (returnFromCall s)

/-- JMP (R145): the run loop goes on (C5). -/
def execJmp (ra : Nat) (s : State) : Host.Outcome State Fault Refusal :=
  conclude s (jumpTo ra s)

/-- JEQ (R146). -/
def execJeq (ra : Nat) (s : State) : Host.Outcome State Fault Refusal :=
  conclude s (branchIf (jeqTaken s) ra s)

/-- JNE (R147). -/
def execJne (ra : Nat) (s : State) : Host.Outcome State Fault Refusal :=
  conclude s (branchIf (jneTaken s) ra s)

end Sys2Proof.Machine
end

