-- ==== Sys2Proof/Machine/Output.lean ====
section
/-! DEFINITION. The console output instruction PRN (43_output.md). -/

namespace Sys2Proof.Machine

/-- PRN's rule (R160): the append is complete before the next fetch (R161). -/
def printRegister (ra : Nat) (s : State) : Except ErrorKind State := do
  let v ← readReg ra s
  return advancePc 2 (emit v s)

/-- PRN (R160). -/
def execPrn (ra : Nat) (s : State) : Host.Outcome State Fault Refusal :=
  conclude s (printRegister ra s)

end Sys2Proof.Machine
end

