-- ==== Sys2Proof/Machine/RegisterStack.lean ====
section
/-! DEFINITION. The register load and stack instructions: LDI, PUSH, POP (40_register_and_stack.md). Every register
is read at its own step of the rule, so R7 named as an operand is seen as the earlier steps left it (D23). -/

namespace Sys2Proof.Machine

/-- LDI's rule (R101). -/
def loadImmediate (ra : Nat) (imm : Byte) (s : State) : Except ErrorKind State := do
  let t ← writeReg ra imm.toNat s
  return advancePc 3 t

/-- PUSH's rule (R102): decrement SP, read the register, store. -/
def pushRegister (ra : Nat) (s : State) : Except ErrorKind State := do
  let t := decSp s
  let v ← readReg ra t
  let u ← storeTop v.toNat t
  return advancePc 2 u

/-- POP's rule (R103): load, write the register, then increment SP. -/
def popRegister (ra : Nat) (s : State) : Except ErrorKind State := do
  let v ← loadTop s
  let t ← writeReg ra v.toNat s
  return advancePc 2 (incSp t)

/-- LDI (R101). -/
def execLdi (ra : Nat) (imm : Byte) (s : State) : Host.Outcome State Fault Refusal :=
  conclude s (loadImmediate ra imm s)

/-- PUSH (R102). -/
def execPush (ra : Nat) (s : State) : Host.Outcome State Fault Refusal :=
  conclude s (pushRegister ra s)

/-- POP (R103). -/
def execPop (ra : Nat) (s : State) : Host.Outcome State Fault Refusal :=
  conclude s (popRegister ra s)

end Sys2Proof.Machine
end

