-- ==== Sys2Proof/Machine/Cycle.lean ====
section
/-! DEFINITION. One iteration of the instruction cycle (R78), what `step()` does in each run state, and the placing of
one instruction where the next iteration fetches it. -/

namespace Sys2Proof.Machine

/-- One iteration, begun in Running: count it, fetch, and execute; an error of the fetch halts as any other does. -/
def iteration (s : State) : Host.Outcome State Fault Refusal :=
  let s1 := countCycle s
  match fetch s1 with
  | .ok i => exec i s1
  | .error e => .next (haltWith e s1)

/-- `step()` of the host interface (D16): one iteration if the machine is Running. Halted is terminal (R31), and a step
taken in it changes nothing. -/
def cycle (s : State) : Host.Outcome State Fault Refusal :=
  match s.run with
  | .running => iteration s
  | .halted => .next s

/-- The state with the instruction of a table word laid at the pc, and Running, since nothing is fetched in Halted. -/
def placeInstruction (s : State) (nbits w : Nat) : State :=
  withRun .running (withMem (placeBytes s.mem s.pc.toNat (tableBytes nbits w)) s)

end Sys2Proof.Machine
end

