-- ==== Sys2Proof/Machine/HostOps.lean ====
section
/-! DEFINITION. The host's operations on the core between iterations (D16): loading the program image (R202), `clear()`
(R201) and the status reads (R30, R32, R161). Reset is `State.reset`. The host writes no register, flag or pc. -/

namespace Sys2Proof.Machine

/-- Why the host's load does not start the core. -/
inductive LoadError where
  /-- The image has more bytes than memory has cells (R202, D18). -/
  | imageTooLong
  /-- The load is not the one bulk write after reset and before the first iteration (R202, R203). -/
  | notAfterReset
  deriving DecidableEq, Repr

/-- Writes each value of an image in turn, from an address upwards, reduced modulo 256 (R202, R53). -/
def writeImage : Memory → Nat → List Nat → Memory
  | m, _, [] => m
  | m, a, v :: vs => writeImage (writeByte m a (mod256 v)) (a + 1) vs

/-- `load(image)` (R202): the one bulk write from address 0, on the state after reset. -/
def loadImage (image : List Nat) (s : State) : Except LoadError State :=
  if s = State.reset then
    if image.length ≤ Config.memSize then .ok (withMem (writeImage s.mem 0 image) s) else .error .imageTooLong
  else .error .notAfterReset

/-- `clear()` (R54, R201): every cell 0, and nothing else changes. -/
def clearMemory (s : State) : State := withMem [] s

/-- The 3-bit code of the halt cause (R32). -/
def causeCode : Option ErrorKind → BitVec 3
  | none => 0
  | some .unknownInstruction => 1
  | some .arithmeticError => 2
  | some .addressOutOfRange => 3
  | some .registerOutOfRange => 4
  | some .unsupportedOperation => 5

/-- The console as the host shows it: each value as a decimal numeral and a line break (R161). -/
def renderOutput (out : List Byte) : String := String.join (out.map fun v => toString v.toNat ++ "\n")

end Sys2Proof.Machine
end

