-- ==== Sys2Proof/Machine/Run.lean ====
section
/-! DEFINITION. The host's `run(MAX_CYCLES?)` (R183, R189, D16): `step()` repeated until the run ends. A run without a
bound may be infinite, so the loop carries the number of steps it may still take. -/

namespace Sys2Proof.Machine

/-- How a run ends (R189). -/
inductive RunEnd where
  /-- Halted, with the cause recorded: NONE for a clean halt, an error kind for an error halt. -/
  | halted (cause : Option ErrorKind)
  /-- The bound was reached while Running. -/
  | cycleLimitReached
  deriving DecidableEq, Repr

/-- Whether the run has ended before the next iteration: Halted, or Running with `cycles = MAX_CYCLES` (R183). -/
def runEnd (maxCycles : Option Nat) (s : State) : Option RunEnd :=
  match s.run with
  | .halted => some (.halted s.cause)
  | .running => if maxCycles = some s.cycles then some .cycleLimitReached else none

/-- At most `fuel` steps of a run: the state reached, and how the run ended if it did. -/
def runLoop (maxCycles : Option Nat) : Nat → State → Host.Outcome (State × Option RunEnd) Fault Refusal
  | 0, s => .next (s, runEnd maxCycles s)
  | fuel + 1, s =>
    match runEnd maxCycles s with
    | some e => .next (s, some e)
    | none =>
      match step s with
      | .next t => runLoop maxCycles fuel t
      | .fault r => .fault r
      | .refused r => .refused r

/-- `run(MAX_CYCLES)` with a bound: the iterations left until the bound are steps enough. -/
def runBounded (maxCycles : Nat) (s : State) : Host.Outcome (State × Option RunEnd) Fault Refusal :=
  runLoop (some maxCycles) (maxCycles - s.cycles) s

end Sys2Proof.Machine
end

