-- ==== Sys2Proof/Safety.lean ====
section
/-! DEFINITION. The vocabulary of the claims: legal flags (R29), the invariant every step keeps, the precise error
halt (R177), the opcode classes of R75 and R71, how an opcode is fetched (R78), and the registers an instruction reads
and writes (R24). -/

namespace Sys2Proof.Machine

/-- Exactly one of the three flags is set, as after any CMP (R29). -/
abbrev OneFlag (f : Flags) : Prop :=
  f = { equal := true, greater := false, less := false } ∨ f = { equal := false, greater := true, less := false } ∨
    f = { equal := false, greater := false, less := true }

/-- No flag is set, as from reset until the first CMP (R29). -/
abbrev NoFlag (f : Flags) : Prop := f = { equal := false, greater := false, less := false }

/-- What holds of the machine between iterations: memory is canonical; the flags hold one of their four values (R29);
a Running machine has no cause (R32: NONE is "running, or halted by HLT"); no step has recorded the ALU guard's error
(R175). -/
abbrev Inv (s : State) : Prop :=
  Memory.wf s.mem ∧ (NoFlag s.flags ∨ OneFlag s.flags) ∧ (s.run = .running → s.cause = none) ∧
    s.cause ≠ some .unsupportedOperation

/-- A clean halt (R189 (a)). -/
abbrev CleanHalt (s : State) : Prop := s.run = .halted ∧ s.cause = none

/-- An error halt with its cause (R189 (b)). -/
abbrev ErrorHalt (e : ErrorKind) (s : State) : Prop := s.run = .halted ∧ s.cause = some e

/-- The state a runtime error leaves: `run <- Halted; cause <- E`, and nothing else (R177). -/
def errorHalt (e : ErrorKind) (s : State) : State := { s with run := .halted, cause := some e }

/-- The state an iteration works on: its count is taken first (R78). -/
def counted (s : State) : State := { s with cycles := s.cycles + 1 }

/-- The opcode byte under the pc. -/
def opcodeAt (s : State) : Byte := readByte s.mem s.pc.toNat

/-- The byte after the opcode. -/
def operand1 (s : State) : Byte := readByte s.mem (s.pc.toNat + 1)

/-- The second byte after the opcode. -/
def operand2 (s : State) : Byte := readByte s.mem (s.pc.toNat + 2)

/-- Opcodes of one-byte instructions, format Z: HLT, RET. -/
def oneByteOpcodes : List Byte := [0x01, 0x11]

/-- Opcodes of two-byte instructions, format R: PRN, PUSH, POP, CALL, JMP, JEQ, JNE. -/
def twoByteOpcodes : List Byte := [0x47, 0x45, 0x46, 0x50, 0x54, 0x55, 0x56]

/-- Opcodes of format RR: MUL, ADD, CMP, AND, OR, XOR, SHL, SHR, MOD. -/
def rrOpcodes : List Byte := [0xA2, 0xA0, 0xA7, 0xA8, 0xAA, 0xAB, 0xAC, 0xAD, 0xA4]

/-- Opcodes of three-byte instructions: LDI, NOT and format RR. -/
def threeByteOpcodes : List Byte := 0x82 :: 0x69 :: rrOpcodes

/-- The twenty opcodes. -/
def allOpcodes : List Byte := oneByteOpcodes ++ twoByteOpcodes ++ threeByteOpcodes

/-- Opcodes of the instructions that write the pc with a target, or halt: the sequential advance of R80 is for the rest. -/
def noAdvanceOpcodes : List Byte := [0x01, 0x50, 0x11, 0x54, 0x55, 0x56]

/-- The next fetch in a Running state gives the byte `v` at the address `a`, whichever byte of the instruction lies there:
the opcode or one of the two operand bytes, whose addresses are not reduced (R64, R78). -/
def FetchesNext (t : State) (a : Nat) (v : Byte) : Prop :=
  t.run = .running ∧ (t.pc.toNat = a → opcodeAt t = v) ∧ (t.pc.toNat + 1 = a → operand1 t = v) ∧
    (t.pc.toNat + 2 = a → operand2 t = v)

/-- How an opcode with operand bytes is fetched (R78): from a Running state with that opcode under the pc, a step counts
the iteration and executes the instruction made of the operand bytes where all of them lie in memory, and halts with
AddressOutOfRange where one lies above address 255. -/
def FetchedAs (op : Byte) (len : Nat) (mk : Byte → Byte → Instr) : Prop :=
  ∀ s : State, s.run = .running → opcodeAt s = op →
    (s.pc.toNat + len ≤ 256 → step s = exec (mk (operand1 s) (operand2 s)) (counted s)) ∧
    (256 < s.pc.toNat + len → step s = .next (errorHalt .addressOutOfRange (counted s)))

/-- How a one-byte instruction is fetched: it has no operand byte, so its fetch cannot fail wherever the pc is. -/
def FetchedAlone (op : Byte) (i : Instr) : Prop :=
  ∀ s : State, s.run = .running → opcodeAt s = op → step s = exec i (counted s)

/-- How the run state and the cause may change in an instruction other than HLT: not at all, or by an error halt that
changes nothing else. -/
def RunFrame (s t : State) : Prop := (t.run = s.run ∧ t.cause = s.cause) ∨ ∃ e, t = errorHalt e s

/-- Which registers an instruction reads (the table of R24); `e` is FL.E. -/
def readsReg (e : Bool) : Instr → Nat → Prop
  | .ldi _ _, _ => False
  | .prn a, j => j = a
  | .hlt, _ => False
  | .mul a b, j => j = a ∨ j = b
  | .add a b, j => j = a ∨ j = b
  | .push a, j => j = 7 ∨ j = a
  | .pop _, j => j = 7
  | .call a, j => j = 7 ∨ j = a
  | .ret, j => j = 7
  | .cmp a b, j => j = a ∨ j = b
  | .jmp a, j => j = a
  | .jeq a, j => e = true ∧ j = a
  | .jne a, j => e = false ∧ j = a
  | .and a b, j => j = a ∨ j = b
  | .or a b, j => j = a ∨ j = b
  | .xor a b, j => j = a ∨ j = b
  | .not a _, j => j = a
  | .shl a b, j => j = a ∨ j = b
  | .shr a b, j => j = a ∨ j = b
  | .mod a b, j => j = a ∨ j = b

/-- Which registers an instruction writes (the table of R24). -/
def writesReg : Instr → Nat → Prop
  | .ldi a _, j => j = a
  | .prn _, _ => False
  | .hlt, _ => False
  | .mul a _, j => j = a
  | .add a _, j => j = a
  | .push _, j => j = 7
  | .pop a, j => j = a ∨ j = 7
  | .call _, j => j = 7
  | .ret, j => j = 7
  | .cmp _ _, _ => False
  | .jmp _, _ => False
  | .jeq _, _ => False
  | .jne _, _ => False
  | .and a _, j => j = a
  | .or a _, j => j = a
  | .xor a _, j => j = a
  | .not a _, j => j = a
  | .shl a _, j => j = a
  | .shr a _, j => j = a
  | .mod a _, j => j = a

/-- The state with one register's value replaced. -/
def setReg (j : Nat) (hj : j < 8) (v : Byte) (s : State) : State := { s with regs := s.regs.set j v }

end Sys2Proof.Machine
end

