-- ==== Sys2Proof/Certificates/Slice0/Obligations.lean ====
section
/-! DEFINITION. The statements for the provers. Each docstring names the rule of spec/ it formalises; a statement that
rests on one of the spec's own decisions (92_eei_decisions.md) or on the model's choice says so and has basis derived. -/

open Sys2Proof Sys2Proof.Machine

/-! ## Per instruction: fetched from its opcode, completed, and stopped. The next state is written out whole, so that
what is not named in it is unchanged. -/

/-- R101: LDI. The immediate goes to the register as it is; the register may be R7. The advance is decision D7, the
fetch past the top D8, the error halt D9 and D11, the count D15. -/
def Obligations.LdiLoadsItsImmediate : Prop :=
  FetchedAs 0x82 3 (fun b1 b2 => .ldi b1.toNat b2) ∧
  (∀ (s : State) (ra : Nat) (imm : Byte) (_ : ra < 8),
    exec (.ldi ra imm) s = .next { s with regs := s.regs.set ra imm, pc := mod256 (s.pc.toNat + 3) }) ∧
  (∀ (s : State) (ra : Nat) (imm : Byte), 8 ≤ ra → exec (.ldi ra imm) s = .next (errorHalt .registerOutOfRange s))

/-- R160: PRN. The register's value is appended to the output; nothing is emitted when it does not exist. The advance is
decision D7, the fetch past the top D8, the error halt D9 and D11, the count D15. -/
def Obligations.PrnPrintsItsRegister : Prop :=
  FetchedAs 0x47 2 (fun b1 _ => .prn b1.toNat) ∧
  (∀ (s : State) (ra : Nat) (_ : ra < 8),
    exec (.prn ra) s = .next { s with out := s.out ++ [s.regs[ra]], pc := mod256 (s.pc.toNat + 2) }) ∧
  (∀ (s : State) (ra : Nat), 8 ≤ ra → exec (.prn ra) s = .next (errorHalt .registerOutOfRange s))

/-- 42_control.md HLT, with decision D10: Halted, cause NONE, and the pc keeps the address of the HLT. The count is
decision D15. -/
def Obligations.HltHaltsClean : Prop :=
  FetchedAlone 0x01 .hlt ∧
  (∀ s : State, exec .hlt s = .next { s with run := .halted, cause := none })

/-- 41_alu.md MUL, with decisions D1 and D2: the product modulo 256. The advance is decision D7, the fetch past the top
D8, the error halt D9 and D11, the count D15. -/
def Obligations.MulWrapsModulo256 : Prop :=
  FetchedAs 0xA2 3 (fun b1 b2 => .mul b1.toNat b2.toNat) ∧
  (∀ (s : State) (ra rb : Nat) (_ : ra < 8) (_ : rb < 8), ∃ v : Byte,
    v.toNat = s.regs[ra].toNat * s.regs[rb].toNat % 256 ∧
    exec (.mul ra rb) s = .next { s with regs := s.regs.set ra v, pc := mod256 (s.pc.toNat + 3) }) ∧
  (∀ (s : State) (ra rb : Nat), 8 ≤ ra ∨ 8 ≤ rb → exec (.mul ra rb) s = .next (errorHalt .registerOutOfRange s))

/-- 41_alu.md ADD, with decisions D1 and D2: the sum modulo 256. The advance is decision D7, the fetch past the top D8,
the error halt D9 and D11, the count D15. -/
def Obligations.AddWrapsModulo256 : Prop :=
  FetchedAs 0xA0 3 (fun b1 b2 => .add b1.toNat b2.toNat) ∧
  (∀ (s : State) (ra rb : Nat) (_ : ra < 8) (_ : rb < 8), ∃ v : Byte,
    v.toNat = (s.regs[ra].toNat + s.regs[rb].toNat) % 256 ∧
    exec (.add ra rb) s = .next { s with regs := s.regs.set ra v, pc := mod256 (s.pc.toNat + 3) }) ∧
  (∀ (s : State) (ra rb : Nat), 8 ≤ ra ∨ 8 ≤ rb → exec (.add ra rb) s = .next (errorHalt .registerOutOfRange s))

/-- 40_register_and_stack.md PUSH, with decision D23 (PUSH R7 pushes the decremented SP): the byte goes to the address
one below SP modulo 256, and every other byte stays. With a bad index SP is not decremented. The advance is decision D7,
the fetch past the top D8, the error halt D9 and D11, the count D15. -/
def Obligations.PushStoresBelowSp : Prop :=
  FetchedAs 0x45 2 (fun b1 _ => .push b1.toNat) ∧
  (∀ (s : State) (ra : Nat) (_ : ra < 8), ∃ (a : Byte) (m : Memory),
    a.toNat = (s.regs[7].toNat + 255) % 256 ∧
    (∀ b, readByte m b = if b = a.toNat then (if ra = 7 then a else s.regs[ra]) else readByte s.mem b) ∧
    exec (.push ra) s =
      .next { s with regs := s.regs.set 7 a, mem := m, pc := mod256 (s.pc.toNat + 2) }) ∧
  (∀ (s : State) (ra : Nat), 8 ≤ ra → exec (.push ra) s = .next (errorHalt .registerOutOfRange s))

/-- 40_register_and_stack.md POP, with decision D23 (POP R7 leaves SP one above the popped value): the byte SP names
goes to the register and SP is incremented modulo 256; memory is not changed. The advance is decision D7, the fetch past
the top D8, the error halt D9 and D11, the count D15. -/
def Obligations.PopLoadsFromSp : Prop :=
  FetchedAs 0x46 2 (fun b1 _ => .pop b1.toNat) ∧
  (∀ (s : State) (ra : Nat) (_ : ra < 8), ∃ v n : Byte,
    v = readByte s.mem s.regs[7].toNat ∧
    n.toNat = ((if ra = 7 then v.toNat else s.regs[7].toNat) + 1) % 256 ∧
    exec (.pop ra) s =
      .next { s with regs := (s.regs.set ra v).set 7 n, pc := mod256 (s.pc.toNat + 2) }) ∧
  (∀ (s : State) (ra : Nat), 8 ≤ ra → exec (.pop ra) s = .next (errorHalt .registerOutOfRange s))

/-- 42_control.md CALL, with decisions D7 (the return address is reduced modulo 256) and D23 (CALL R7 jumps to the
decremented SP): the return address is stored one below SP, and the pc is the register's value. The fetch past the top
is decision D8, the error halt D9, the count D15. -/
def Obligations.CallPushesReturnAddress : Prop :=
  FetchedAs 0x50 2 (fun b1 _ => .call b1.toNat) ∧
  (∀ (s : State) (ra : Nat) (_ : ra < 8), ∃ (a : Byte) (m : Memory),
    a.toNat = (s.regs[7].toNat + 255) % 256 ∧
    (∀ b, readByte m b = if b = a.toNat then mod256 (s.pc.toNat + 2) else readByte s.mem b) ∧
    exec (.call ra) s =
      .next { s with regs := s.regs.set 7 a, mem := m, pc := if ra = 7 then a else s.regs[ra] }) ∧
  (∀ (s : State) (ra : Nat), 8 ≤ ra → exec (.call ra) s = .next (errorHalt .registerOutOfRange s))

/-- R143: RET. The byte SP names is the new pc and SP is incremented modulo 256. It never halts: no operand is fetched
and no access can fail. The count is decision D15. -/
def Obligations.RetPopsThePc : Prop :=
  FetchedAlone 0x11 .ret ∧
  (∀ s : State, ∃ n : Byte, n.toNat = (s.regs[7].toNat + 1) % 256 ∧
    exec .ret s = .next { s with regs := s.regs.set 7 n, pc := readByte s.mem s.regs[7].toNat })

/-- 41_alu.md CMP, with decision D3 (the comparison is unsigned): exactly one flag is set. The advance is decision D7,
the fetch past the top D8, the error halt D9 and D11, the count D15. -/
def Obligations.CmpSetsFlagsUnsigned : Prop :=
  FetchedAs 0xA7 3 (fun b1 b2 => .cmp b1.toNat b2.toNat) ∧
  (∀ (s : State) (ra rb : Nat) (_ : ra < 8) (_ : rb < 8), ∃ f : Flags,
    (f.equal = true ↔ s.regs[ra].toNat = s.regs[rb].toNat) ∧
    (f.greater = true ↔ s.regs[rb].toNat < s.regs[ra].toNat) ∧
    (f.less = true ↔ s.regs[ra].toNat < s.regs[rb].toNat) ∧ OneFlag f ∧
    exec (.cmp ra rb) s = .next { s with flags := f, pc := mod256 (s.pc.toNat + 3) }) ∧
  (∀ (s : State) (ra rb : Nat), 8 ≤ ra ∨ 8 ≤ rb → exec (.cmp ra rb) s = .next (errorHalt .registerOutOfRange s))

/-- R145: JMP. The pc is the register's value and nothing else changes: the machine runs on. The fetch past the top is
decision D8, the error halt D9, the count D15. -/
def Obligations.JmpSetsThePc : Prop :=
  FetchedAs 0x54 2 (fun b1 _ => .jmp b1.toNat) ∧
  (∀ (s : State) (ra : Nat) (_ : ra < 8), exec (.jmp ra) s = .next { s with pc := s.regs[ra] }) ∧
  (∀ (s : State) (ra : Nat), 8 ≤ ra → exec (.jmp ra) s = .next (errorHalt .registerOutOfRange s))

/-- 42_control.md JEQ, with decisions D7 and D11 (the index is checked only when the jump is taken). The advance is
decision D7, the fetch past the top D8, the error halt D9 and D11, the count D15. -/
def Obligations.JeqJumpsWhenEqual : Prop :=
  FetchedAs 0x55 2 (fun b1 _ => .jeq b1.toNat) ∧
  (∀ (s : State) (ra : Nat) (_ : ra < 8), s.flags.equal = true → exec (.jeq ra) s = .next { s with pc := s.regs[ra] }) ∧
  (∀ (s : State) (ra : Nat), s.flags.equal = false →
    exec (.jeq ra) s = .next { s with pc := mod256 (s.pc.toNat + 2) }) ∧
  (∀ (s : State) (ra : Nat), 8 ≤ ra → s.flags.equal = true →
    exec (.jeq ra) s = .next (errorHalt .registerOutOfRange s))

/-- 42_control.md JNE, with decisions D7 and D11: as JEQ, taken when the equal flag is clear. The advance is decision
D7, the fetch past the top D8, the error halt D9 and D11, the count D15. -/
def Obligations.JneJumpsWhenNotEqual : Prop :=
  FetchedAs 0x56 2 (fun b1 _ => .jne b1.toNat) ∧
  (∀ (s : State) (ra : Nat) (_ : ra < 8), s.flags.equal = false → exec (.jne ra) s = .next { s with pc := s.regs[ra] }) ∧
  (∀ (s : State) (ra : Nat), s.flags.equal = true →
    exec (.jne ra) s = .next { s with pc := mod256 (s.pc.toNat + 2) }) ∧
  (∀ (s : State) (ra : Nat), 8 ≤ ra → s.flags.equal = false →
    exec (.jne ra) s = .next (errorHalt .registerOutOfRange s))

/-- R114: AND. The advance is decision D7, the fetch past the top D8, the error halt D9 and D11, the count D15. -/
def Obligations.AndIsBitwise : Prop :=
  FetchedAs 0xA8 3 (fun b1 b2 => .and b1.toNat b2.toNat) ∧
  (∀ (s : State) (ra rb : Nat) (_ : ra < 8) (_ : rb < 8), ∃ v : Byte,
    (∀ k < 8, v.getLsbD k = (s.regs[ra].getLsbD k && s.regs[rb].getLsbD k)) ∧
    exec (.and ra rb) s = .next { s with regs := s.regs.set ra v, pc := mod256 (s.pc.toNat + 3) }) ∧
  (∀ (s : State) (ra rb : Nat), 8 ≤ ra ∨ 8 ≤ rb → exec (.and ra rb) s = .next (errorHalt .registerOutOfRange s))

/-- R115: OR. The advance is decision D7, the fetch past the top D8, the error halt D9 and D11, the count D15. -/
def Obligations.OrIsBitwise : Prop :=
  FetchedAs 0xAA 3 (fun b1 b2 => .or b1.toNat b2.toNat) ∧
  (∀ (s : State) (ra rb : Nat) (_ : ra < 8) (_ : rb < 8), ∃ v : Byte,
    (∀ k < 8, v.getLsbD k = (s.regs[ra].getLsbD k || s.regs[rb].getLsbD k)) ∧
    exec (.or ra rb) s = .next { s with regs := s.regs.set ra v, pc := mod256 (s.pc.toNat + 3) }) ∧
  (∀ (s : State) (ra rb : Nat), 8 ≤ ra ∨ 8 ≤ rb → exec (.or ra rb) s = .next (errorHalt .registerOutOfRange s))

/-- R116: XOR. The advance is decision D7, the fetch past the top D8, the error halt D9 and D11, the count D15. -/
def Obligations.XorIsBitwise : Prop :=
  FetchedAs 0xAB 3 (fun b1 b2 => .xor b1.toNat b2.toNat) ∧
  (∀ (s : State) (ra rb : Nat) (_ : ra < 8) (_ : rb < 8), ∃ v : Byte,
    (∀ k < 8, v.getLsbD k = (s.regs[ra].getLsbD k != s.regs[rb].getLsbD k)) ∧
    exec (.xor ra rb) s = .next { s with regs := s.regs.set ra v, pc := mod256 (s.pc.toNat + 3) }) ∧
  (∀ (s : State) (ra rb : Nat), 8 ≤ ra ∨ 8 ≤ rb → exec (.xor ra rb) s = .next (errorHalt .registerOutOfRange s))

/-- 41_alu.md NOT, with conflict C1 (three bytes) and decisions D2 and D11 (the pad is neither used nor checked): the
value of the named register is complemented in place, whatever the pad. The advance is decision D7, the fetch past the
top D8, the error halt D9 and D11, the count D15. -/
def Obligations.NotComplementsInPlace : Prop :=
  FetchedAs 0x69 3 (fun b1 b2 => .not b1.toNat b2) ∧
  (∀ (s : State) (ra : Nat) (pad : Byte) (_ : ra < 8), ∃ v : Byte,
    v.toNat = 255 - s.regs[ra].toNat ∧ (∀ k < 8, v.getLsbD k = !s.regs[ra].getLsbD k) ∧
    exec (.not ra pad) s = .next { s with regs := s.regs.set ra v, pc := mod256 (s.pc.toNat + 3) }) ∧
  (∀ (s : State) (ra : Nat) (pad : Byte), 8 ≤ ra → exec (.not ra pad) s = .next (errorHalt .registerOutOfRange s))

/-- 41_alu.md SHL, with decision D4: the count is the whole value of `x[rb]`, and 8 or more gives 0. The advance is
decision D7, the fetch past the top D8, the error halt D9 and D11, the count D15. -/
def Obligations.ShlShiftsByWholeCount : Prop :=
  FetchedAs 0xAC 3 (fun b1 b2 => .shl b1.toNat b2.toNat) ∧
  (∀ (s : State) (ra rb : Nat) (_ : ra < 8) (_ : rb < 8), ∃ v : Byte,
    v.toNat = s.regs[ra].toNat * 2 ^ s.regs[rb].toNat % 256 ∧ (8 ≤ s.regs[rb].toNat → v = 0) ∧
    exec (.shl ra rb) s = .next { s with regs := s.regs.set ra v, pc := mod256 (s.pc.toNat + 3) }) ∧
  (∀ (s : State) (ra rb : Nat), 8 ≤ ra ∨ 8 ≤ rb → exec (.shl ra rb) s = .next (errorHalt .registerOutOfRange s))

/-- 41_alu.md SHR, with decision D4: a logical shift by the whole count, and 8 or more gives 0. The advance is decision
D7, the fetch past the top D8, the error halt D9 and D11, the count D15. -/
def Obligations.ShrShiftsByWholeCount : Prop :=
  FetchedAs 0xAD 3 (fun b1 b2 => .shr b1.toNat b2.toNat) ∧
  (∀ (s : State) (ra rb : Nat) (_ : ra < 8) (_ : rb < 8), ∃ v : Byte,
    v.toNat = s.regs[ra].toNat / 2 ^ s.regs[rb].toNat ∧ (8 ≤ s.regs[rb].toNat → v = 0) ∧
    exec (.shr ra rb) s = .next { s with regs := s.regs.set ra v, pc := mod256 (s.pc.toNat + 3) }) ∧
  (∀ (s : State) (ra rb : Nat), 8 ≤ ra ∨ 8 ≤ rb → exec (.shr ra rb) s = .next (errorHalt .registerOutOfRange s))

/-- R120: MOD. The remainder with a nonzero divisor; with a zero divisor the machine halts with ARITHMETIC_ERROR and
nothing else changes; a register that does not exist is reported before the divisor is looked at. The advance is
decision D7, the fetch past the top D8, the error halt D9 and D11, the count D15. -/
def Obligations.ModRemainderOrHalt : Prop :=
  FetchedAs 0xA4 3 (fun b1 b2 => .mod b1.toNat b2.toNat) ∧
  (∀ (s : State) (ra rb : Nat) (_ : ra < 8) (_ : rb < 8), s.regs[rb].toNat ≠ 0 → ∃ v : Byte,
    v.toNat = s.regs[ra].toNat % s.regs[rb].toNat ∧
    exec (.mod ra rb) s = .next { s with regs := s.regs.set ra v, pc := mod256 (s.pc.toNat + 3) }) ∧
  (∀ (s : State) (ra rb : Nat) (_ : ra < 8) (_ : rb < 8), s.regs[rb].toNat = 0 →
    exec (.mod ra rb) s = .next (errorHalt .arithmeticError s)) ∧
  (∀ (s : State) (ra rb : Nat), 8 ≤ ra ∨ 8 ≤ rb → exec (.mod ra rb) s = .next (errorHalt .registerOutOfRange s))

/-! ## Frames: what an instruction leaves unchanged, whatever next state it answers. -/

/-- R24 and R110: LDI and the ALU instructions that write a register change only that register and the pc, or halt. That
an error halt changes nothing else is decision D9. -/
def Obligations.RegisterWritersFrame : Prop :=
  ∀ (s t : State) (ra rb : Nat) (imm pad : Byte),
    ∀ i ∈ [Instr.ldi ra imm, .mul ra rb, .add ra rb, .and ra rb, .or ra rb, .xor ra rb, .not ra pad, .shl ra rb,
      .shr ra rb, .mod ra rb], exec i s = .next t →
    (∀ (j : Nat) (_ : j < 8), j ≠ ra → t.regs[j] = s.regs[j]) ∧ t.flags = s.flags ∧
    (∀ a, readByte t.mem a = readByte s.mem a) ∧ t.out = s.out ∧ t.cycles = s.cycles ∧ RunFrame s t

/-- R24 and R28: CMP changes only the flags and the pc, or halts; on an error the flags keep their values. That an error
halt changes nothing else is decision D9. -/
def Obligations.CmpFrame : Prop :=
  ∀ (s t : State) (ra rb : Nat), exec (.cmp ra rb) s = .next t →
    (∀ (j : Nat) (_ : j < 8), t.regs[j] = s.regs[j]) ∧ (∀ a, readByte t.mem a = readByte s.mem a) ∧
    t.out = s.out ∧ t.cycles = s.cycles ∧ RunFrame s t ∧ (t.run ≠ s.run → t.flags = s.flags)

/-- R24 and R55: PUSH and CALL change only SP, the one byte at the new top of the stack and the pc, or halt. That an
error halt changes nothing else is decision D9. -/
def Obligations.PushAndCallFrame : Prop :=
  ∀ (s t : State) (ra : Nat), ∀ i ∈ [Instr.push ra, .call ra], exec i s = .next t →
    (∀ (j : Nat) (_ : j < 8), j ≠ 7 → t.regs[j] = s.regs[j]) ∧ t.flags = s.flags ∧
    (∀ a, topAddress (decSp s) = a → ∀ b, b ≠ a → readByte t.mem b = readByte s.mem b) ∧
    t.out = s.out ∧ t.cycles = s.cycles ∧ RunFrame s t

/-- R24 and R55: POP changes only its register, SP and the pc, or halts; memory is not changed. That an error halt
changes nothing else is decision D9. -/
def Obligations.PopFrame : Prop :=
  ∀ (s t : State) (ra : Nat), exec (.pop ra) s = .next t →
    (∀ (j : Nat) (_ : j < 8), j ≠ 7 → j ≠ ra → t.regs[j] = s.regs[j]) ∧ t.flags = s.flags ∧
    (∀ a, readByte t.mem a = readByte s.mem a) ∧ t.out = s.out ∧ t.cycles = s.cycles ∧ RunFrame s t

/-- R24 and R55: RET changes only SP and the pc; memory is not changed. -/
def Obligations.RetFrame : Prop :=
  ∀ s t : State, exec .ret s = .next t →
    (∀ (j : Nat) (_ : j < 8), j ≠ 7 → t.regs[j] = s.regs[j]) ∧ t.flags = s.flags ∧
    (∀ a, readByte t.mem a = readByte s.mem a) ∧ t.out = s.out ∧ t.cycles = s.cycles ∧
    t.run = s.run ∧ t.cause = s.cause

/-- R24, R140 and R160: the jumps change only the pc, PRN only the output and the pc, HLT only the run state and the
cause. That HLT keeps the pc is decision D10 (R141, log 14), that an error halt changes nothing else decision D9. -/
def Obligations.JumpPrintHaltFrame : Prop :=
  ∀ (s t : State) (ra : Nat), ∀ i ∈ [Instr.jmp ra, .jeq ra, .jne ra, .prn ra, .hlt], exec i s = .next t →
    (∀ (j : Nat) (_ : j < 8), t.regs[j] = s.regs[j]) ∧ t.flags = s.flags ∧
    (∀ a, readByte t.mem a = readByte s.mem a) ∧ t.cycles = s.cycles ∧
    (i ≠ .prn ra → t.out = s.out) ∧ (i ≠ .hlt → RunFrame s t) ∧ (i = .hlt → t.pc = s.pc ∧ CleanHalt t)

/-! ## Errors -/

/-- R171: an opcode byte outside the table halts the machine, whatever follows it and wherever it stands: no operand
byte is fetched. That nothing else changes is decision D9, the count D15. -/
def Obligations.UnknownOpcodeHalts : Prop :=
  ∀ s : State, s.run = .running →
    (opcodeAt s ∉ allOpcodes → step s = .next (errorHalt .unknownInstruction (counted s))) ∧
    (opcodeAt s ∈ allOpcodes → ∀ t, step s = .next t → ¬ErrorHalt .unknownInstruction t)

/-- R172: ArithmeticError is raised only by MOD with a zero divisor. That a fetch past the top (D8) and a bad register
(D12) come first are the spec's decisions. -/
def Obligations.ArithmeticErrorOnlyFromMod : Prop :=
  ∀ s t : State, s.run = .running → step s = .next t →
    (ErrorHalt .arithmeticError t ↔
      opcodeAt s = 0xA4 ∧ s.pc.toNat + 3 ≤ 256 ∧ (operand1 s).toNat < 8 ∧
        ∃ h : (operand2 s).toNat < 8, s.regs[(operand2 s).toNat].toNat = 0)

/-- R173: AddressOutOfRange is raised exactly by an operand fetch past the top of memory. That the fetch is not wrapped
is decision D8, that it comes before the register checks D12. -/
def Obligations.AddressErrorOnlyFromFetch : Prop :=
  ∀ s t : State, s.run = .running → step s = .next t →
    (ErrorHalt .addressOutOfRange t ↔
      (opcodeAt s ∈ twoByteOpcodes ∧ 255 ≤ s.pc.toNat) ∨ (opcodeAt s ∈ threeByteOpcodes ∧ 254 ≤ s.pc.toNat))

/-- R174: RegisterOutOfRange is raised exactly where the operation uses a register operand above 7. That only a used
operand is checked is decision D11, that the fetch comes first D12. -/
def Obligations.RegisterErrorOnlyWhenUsed : Prop :=
  ∀ s t : State, s.run = .running → step s = .next t →
    (ErrorHalt .registerOutOfRange t ↔
      (opcodeAt s ∈ [0x82, 0x69] ∧ s.pc.toNat ≤ 253 ∧ 8 ≤ (operand1 s).toNat) ∨
      (opcodeAt s ∈ rrOpcodes ∧ s.pc.toNat ≤ 253 ∧ (8 ≤ (operand1 s).toNat ∨ 8 ≤ (operand2 s).toNat)) ∨
      (opcodeAt s ∈ [0x47, 0x45, 0x46, 0x50, 0x54] ∧ s.pc.toNat ≤ 254 ∧ 8 ≤ (operand1 s).toNat) ∨
      (opcodeAt s = 0x55 ∧ s.flags.equal = true ∧ s.pc.toNat ≤ 254 ∧ 8 ≤ (operand1 s).toNat) ∨
      (opcodeAt s = 0x56 ∧ s.flags.equal = false ∧ s.pc.toNat ≤ 254 ∧ 8 ≤ (operand1 s).toNat))

/-- R175: no instruction of this core raises UnsupportedOperation. -/
def Obligations.UnsupportedOperationNeverRaised : Prop :=
  ∀ s t : State, step s = .next t → s.cause ≠ some .unsupportedOperation → t.cause ≠ some .unsupportedOperation

/-- 30_encoding.md section 4 and 60_exceptions.md section 3, with decisions D9 and D15 (the count): an error halt is precise. Whatever the
instruction and the error, the only changes are Halted, the cause and the count; the pc is the faulting instruction's.
A Running state has no cause (`Inv`, whose preservation is StepKeepsInv). -/
def Obligations.ErrorHaltIsPrecise : Prop :=
  ∀ (s t : State) (e : ErrorKind), s.run = .running → s.cause = none → step s = .next t → t.cause = some e →
    t = errorHalt e (counted s) ∧ t.pc = s.pc

/-- 10_state.md R31 and R32 with decision D13: a step leaves Running exactly by HLT or by an error. -/
def Obligations.HaltsOnlyByHltOrError : Prop :=
  ∀ s t : State, s.run = .running → s.cause = none → step s = .next t →
    (t.run = .halted ↔ opcodeAt s = 0x01 ∨ ∃ e, t.cause = some e)

/-! ## The machine as a whole -/

/-- R28: only a step that executes CMP changes a flag. Errors keep to it by decision D9. -/
def Obligations.OnlyCmpChangesFlags : Prop :=
  ∀ s t : State, step s = .next t → t.flags ≠ s.flags → s.run = .running ∧ opcodeAt s = 0xA7

/-- R33: only a step that executes PRN changes the output, and it appends one value. The form of the output is decision
D14. -/
def Obligations.OnlyPrnAppendsOutput : Prop :=
  ∀ s t : State, step s = .next t → t.out ≠ s.out →
    s.run = .running ∧ opcodeAt s = 0x47 ∧ ∃ h : (operand1 s).toNat < 8, t.out = s.out ++ [s.regs[(operand1 s).toNat]]

/-- 20_memory.md R55: a step changes a byte of memory only by PUSH or CALL, and only the byte one below SP. Errors keep
to it by decision D9. -/
def Obligations.OnlyPushAndCallStore : Prop :=
  ∀ (s t : State) (a : Nat), step s = .next t → readByte t.mem a ≠ readByte s.mem a →
    s.run = .running ∧ (opcodeAt s = 0x45 ∨ opcodeAt s = 0x50) ∧ a = (s.regs[7].toNat + 255) % 256

/-- 10_state.md R27, with decisions D7, D9 and D10: a step that ends in Halted leaves the pc; one that completes an
instruction other than a transfer advances it by the instruction's length modulo 256. The transfers' targets are in the statements
of CALL, RET, JMP, JEQ and JNE. -/
def Obligations.PcHoldsOrAdvances : Prop :=
  ∀ s t : State, s.run = .running → step s = .next t →
    (t.run = .halted → t.pc = s.pc) ∧
    (t.run = .running → opcodeAt s ∈ twoByteOpcodes → opcodeAt s ∉ noAdvanceOpcodes →
      t.pc.toNat = (s.pc.toNat + 2) % 256) ∧
    (t.run = .running → opcodeAt s ∈ threeByteOpcodes → t.pc.toNat = (s.pc.toNat + 3) % 256)

/-- 10_state.md R34 and 70_reset_and_hazards.md R206, with decision D15: every step answers a next state, in every state
of the machine, and counts one iteration if it began in Running. -/
def Obligations.StepAnswersAndCounts : Prop :=
  ∀ s : State, ∃ t, step s = .next t ∧
    (s.run = .running → t.cycles = s.cycles + 1) ∧ (s.run = .halted → t.cycles = s.cycles)

/-- 10_state.md R31, with decision D21 and the model's choice (log 4) that a step in Halted is the identity: however
many steps are taken, Halted is left unchanged. -/
def Obligations.HaltedIsTerminal : Prop :=
  ∀ (n : Nat) (s : State), s.run = .halted → Host.Core.run core n s = .next s

/-- The model's invariant holds at reset. -/
def Obligations.ResetMeetsInv : Prop := Inv State.reset

/-- 70_reset_and_hazards.md R202, with decision D18: the host's load of any image that fits answers a state of the
invariant. -/
def Obligations.LoadMeetsInv : Prop :=
  ∀ (image : List Nat) (t : State), loadImage image State.reset = .ok t → Inv t

/-- Every step keeps the invariant: memory canonical (log 1), flags legal (R29), no cause while Running (R32), no
UnsupportedOperation (R175). It rests on log 1 and decision D13. -/
def Obligations.StepKeepsInv : Prop :=
  ∀ s t : State, Inv s → step s = .next t → Inv t

/-- R29: no flag is set at reset; while none is set, only a CMP that completes changes that, and it leaves exactly one
set; once exactly one is set, exactly one stays set. -/
def Obligations.FlagsTakeFourValues : Prop :=
  NoFlag State.reset.flags ∧
  (∀ s t : State, step s = .next t → NoFlag s.flags → NoFlag t.flags ∨ opcodeAt s = 0xA7 ∧ OneFlag t.flags) ∧
  (∀ s t : State, step s = .next t → OneFlag s.flags → OneFlag t.flags) ∧
  (∀ s t : State, step s = .next t → s.run = .running → opcodeAt s = 0xA7 → t.run = .running → OneFlag t.flags)

/-- 10_state.md R24: an instruction writes only the registers the table names for it, and reads only those the table
names. Replacing the value of a register it does not read changes nothing after it but that register, and not even that
where the instruction writes it. Errors keep to it by decision D9. -/
def Obligations.ReadsAndWritesByTheTable : Prop :=
  (∀ (i : Instr) (s t : State) (j : Nat) (_ : j < 8), ¬writesReg i j → exec i s = .next t → t.regs[j] = s.regs[j]) ∧
  (∀ (i : Instr) (s t : State) (j : Nat) (hj : j < 8) (v : Byte), ¬readsReg s.flags.equal i j → exec i s = .next t →
    (writesReg i j → exec i (setReg j hj v s) = .next t) ∧
    (¬writesReg i j → exec i (setReg j hj v s) = .next (setReg j hj v t)))

/-! ## Laws of several instructions -/

/-- 40_register_and_stack.md, the push-pop law, with conflict C11 (neither register is R7). Both registers are 0 to 7.
-/
def Obligations.PushThenPopRestores : Prop :=
  ∀ (s : State) (x y : Nat) (_ : x < 8) (_ : y < 8), x ≠ 7 → y ≠ 7 → ∃ t u : State,
    exec (.push x) s = .next t ∧ exec (.pop y) t = .next u ∧
    u.regs[y] = s.regs[x] ∧ u.regs[7] = s.regs[7] ∧ readByte u.mem ((s.regs[7].toNat + 255) % 256) = s.regs[x]

/-- 42_control.md, the call-return law, with decision D7: from whatever state the subroutine reaches, if SP and the byte
it names are as CALL left them, RET resumes at the instruction after the CALL and restores SP. -/
def Obligations.RetResumesAfterCall : Prop :=
  ∀ s t u : State, s.run = .running → opcodeAt s = 0x50 → s.pc.toNat + 2 ≤ 256 → (operand1 s).toNat < 8 →
    step s = .next t → u.run = .running → opcodeAt u = 0x11 → u.regs[7] = t.regs[7] →
    readByte u.mem u.regs[7].toNat = readByte t.mem t.regs[7].toNat →
    ∃ w, step u = .next w ∧ w.pc.toNat = (s.pc.toNat + 2) % 256 ∧ w.regs[7] = s.regs[7]

/-- 42_control.md, the property of section 8 the JNE rule quotes: after CMP of two registers, JEQ jumps exactly when
they are equal and JNE exactly when they are not. The advance is decision D7. -/
def Obligations.BranchesFollowCmp : Prop :=
  ∀ (s : State) (a b c : Nat) (_ : a < 8) (_ : b < 8) (_ : c < 8), ∃ t : State,
    exec (.cmp a b) s = .next t ∧
    exec (.jeq c) t =
      .next { t with pc := if s.regs[a] = s.regs[b] then s.regs[c] else mod256 (t.pc.toNat + 2) } ∧
    exec (.jne c) t =
      .next { t with pc := if s.regs[a] = s.regs[b] then mod256 (t.pc.toNat + 2) else s.regs[c] }

/-- 20_memory.md R64: what PUSH or CALL stores is what the very next fetch of that address gives, as the opcode or as
either operand byte. PUSH stores its register, R7 as the decremented SP (decision D23); CALL stores the address two bytes
on, modulo 256 (D7). A PUSH of the HLT opcode into the address of the next instruction halts the machine there (D10). -/
def Obligations.StoredByteIsFetchedNext : Prop :=
  ∀ s : State, s.run = .running → s.pc.toNat + 2 ≤ 256 → ∀ _ : (operand1 s).toNat < 8,
    (opcodeAt s = 0x45 → ∃ (t : State) (v : Byte), step s = .next t ∧
      v.toNat = (if (operand1 s).toNat = 7 then (s.regs[7].toNat + 255) % 256
        else s.regs[(operand1 s).toNat].toNat) ∧
      t.pc.toNat = (s.pc.toNat + 2) % 256 ∧ FetchesNext t ((s.regs[7].toNat + 255) % 256) v ∧
      (v = 0x01 → t.pc.toNat = (s.regs[7].toNat + 255) % 256 →
        ∃ u, step t = .next u ∧ CleanHalt u ∧ u.pc = t.pc)) ∧
    (opcodeAt s = 0x50 → ∃ (t : State) (v : Byte), step s = .next t ∧
      v.toNat = (s.pc.toNat + 2) % 256 ∧
      t.pc.toNat = (if (operand1 s).toNat = 7 then (s.regs[7].toNat + 255) % 256
        else s.regs[(operand1 s).toNat].toNat) ∧
      FetchesNext t ((s.regs[7].toNat + 255) % 256) v)

/-- 30_encoding.md R73 and 95_test_vectors.md W1: for every register and every byte, LDI and then PRN outputs the byte.
The advance is decision D7. -/
def Obligations.LdiThenPrnOutputs : Prop :=
  ∀ (s : State) (x : Nat) (v : Byte), x < 8 → s.run = .running → s.pc.toNat + 5 ≤ 256 →
    opcodeAt s = 0x82 → (operand1 s).toNat = x → operand2 s = v →
    readByte s.mem (s.pc.toNat + 3) = 0x47 → (readByte s.mem (s.pc.toNat + 4)).toNat = x →
    ∃ t u, step s = .next t ∧ step t = .next u ∧ u.out = s.out ++ [v] ∧ u.run = .running

/-! ## Memory, reset and the host's operations -/

/-- R53: MemWrite stores the value modulo 256 at its address and changes nothing else; above 255 it fails. -/
def Obligations.MemWriteStoresModulo256 : Prop :=
  (∀ (a v : Nat) (s : State), a ≤ 255 → ∃ t, memWrite a v s = .ok t ∧
    (∀ b, (readByte t.mem b).toNat = if b = a then v % 256 else (readByte s.mem b).toNat) ∧
    { t with mem := s.mem } = s) ∧
  (∀ (a v : Nat) (s : State), 255 < a → memWrite a v s = .error .addressOutOfRange)

/-- The model's representation of memory (log 1): two memories in canonical form that read alike at every address are
equal data. -/
def Obligations.CanonicalMemoryIsUnique : Prop :=
  ∀ m n : Memory, Memory.wf m → Memory.wf n → (∀ a, readByte m a = readByte n a) → m = n

/-- R54: `clear()` resets every cell to 0 and changes memory only. -/
def Obligations.ClearZeroesMemoryOnly : Prop :=
  ∀ s : State, (∀ a, readByte (clearMemory s).mem a = 0) ∧ { clearMemory s with mem := s.mem } = s

/-- 70_reset_and_hazards.md R202, with decision D18: the image lies from address 0, each value reduced modulo 256, the
cells above it keep 0, and nothing else differs from reset; a longer image is a LoadError. -/
def Obligations.LoadPlacesTheImage : Prop :=
  (∀ image : List Nat, image.length ≤ 256 → ∃ t, loadImage image State.reset = .ok t ∧
    (∀ (a : Nat) (h : a < image.length), (readByte t.mem a).toNat = image[a] % 256) ∧
    (∀ a, image.length ≤ a → readByte t.mem a = 0) ∧ { t with mem := [] } = State.reset) ∧
  (∀ image : List Nat, 256 < image.length → loadImage image State.reset = .error .imageTooLong)

/-- 60_exceptions.md R183 and R189, with decision D15: a run with a bound takes steps from the state it is given, as many
as the iterations it counts, and ends: by a halt with the cause it records, or at the bound while Running. It never counts
past the bound, and in Halted it ends at once in the state it is given. A count above the bound from Running is left out,
because the bound is tested by equality (log 30). -/
def Obligations.BoundedRunEnds : Prop :=
  (∀ (n : Nat) (s : State), s.cycles ≤ n → ∃ (t : State) (e : RunEnd),
    runBounded n s = .next (t, some e) ∧ s.cycles ≤ t.cycles ∧ t.cycles ≤ n ∧
    Host.Core.run core (t.cycles - s.cycles) s = .next t ∧
    (e = .cycleLimitReached → t.run = .running ∧ t.cycles = n) ∧
    (∀ c, e = .halted c → t.run = .halted ∧ t.cause = c)) ∧
  (∀ (n : Nat) (s : State), s.run = .halted → runBounded n s = .next (s, some (.halted s.cause)))

/-- 70_reset_and_hazards.md R200: what reset leaves. Memory, SP, pc, flags and run state are the source's; x[0] to x[6],
the cause, the output and the count are the spec's decisions D5, D13, D14 and D15. -/
def Obligations.ResetLeavesItsValues : Prop :=
  (∀ a, readByte State.reset.mem a = 0) ∧ State.reset.regs[7].toNat = 244 ∧ State.reset.pc.toNat = 0 ∧
  NoFlag State.reset.flags ∧ State.reset.run = .running ∧
  (∀ (j : Nat) (_ : j < 7), State.reset.regs[j].toNat = 0) ∧ State.reset.cause = none ∧ State.reset.out = [] ∧
  State.reset.cycles = 0

/-- 10_state.md R30 and R32, with decisions D6 and D13: the flags byte is 0b00000LGE, and each halt cause has the code of
R32's table, no two the same; 6 and 7 are never produced. -/
def Obligations.StatusReadsAreFaithful : Prop :=
  (∀ f : Flags, (flagsByte f).getLsbD 0 = f.equal ∧ (flagsByte f).getLsbD 1 = f.greater ∧
    (flagsByte f).getLsbD 2 = f.less ∧ (flagsByte f).toNat < 8) ∧
  ((causeCode none).toNat = 0 ∧ (causeCode (some .unknownInstruction)).toNat = 1 ∧
    (causeCode (some .arithmeticError)).toNat = 2 ∧ (causeCode (some .addressOutOfRange)).toNat = 3 ∧
    (causeCode (some .registerOutOfRange)).toNat = 4 ∧ (causeCode (some .unsupportedOperation)).toNat = 5) ∧
  (∀ c d : Option ErrorKind, causeCode c = causeCode d → c = d) ∧ (∀ c, (causeCode c).toNat ≤ 5)

/-! ## Fetch, decode and encode -/

/-- 30_encoding.md R78: where the bytes from the pc upwards, all of them in memory, decode to a well-formed instruction,
a step in Running counts the iteration and is `exec` of that instruction. The count is decision D15. -/
def Obligations.StepRunsDecodedInstruction : Prop :=
  ∀ (s : State) (i : Instr) (bs : List Byte), s.run = .running → i.WellFormed → decode bs = .ok (i, []) →
    s.pc.toNat + bs.length ≤ 256 → (∀ (k : Nat) (h : k < bs.length), readByte s.mem (s.pc.toNat + k) = bs[k]) →
    step s = exec i { s with cycles := s.cycles + 1 }

/-- 30_encoding.md R75 and R71: words written out from the opcode map decode to the instructions they stand for. -/
def Obligations.OpcodeMapWords : Prop :=
  decode [0b10000010#8, 0, 8] = .ok (.ldi 0 8, []) ∧ decode [0b01000111#8, 0] = .ok (.prn 0, []) ∧
  decode [0b00000001#8] = .ok (.hlt, []) ∧ decode [0b10100111#8, 2, 9] = .ok (.cmp 2 9, []) ∧
  decode [0b01101001#8, 2, 0xFF] = .ok (.not 2 0xFF, []) ∧ decode [0b01010000#8, 1] = .ok (.call 1, []) ∧
  decode [0b10100011#8, 0, 1] = .error (.unknownInstruction 0xA3) ∧ decode [0#8] = .error (.unknownInstruction 0)

/-- 30_encoding.md R71 and R75: decoding the encoding of a well-formed instruction gives it back, whatever bytes follow. -/
def Obligations.DecodeOfEncode : Prop :=
  ∀ (i : Instr) (rest : List Byte), i.WellFormed → decode (encode i ++ rest) = .ok (i, rest)

/-- 30_encoding.md R75 and R77: whatever bytes decode, they are the encoding of the well-formed instruction they decode
to, followed by what is left. -/
def Obligations.EncodeOfDecode : Prop :=
  ∀ (bs rest : List Byte) (i : Instr), decode bs = .ok (i, rest) → i.WellFormed ∧ encode i ++ rest = bs
end

