-- ==== Sys2Proof/Laws/State.lean ====
section
/-! SUPPORT. One lemma per field per update of the state, and per named operation made of updates, each true by
definition, so that no proof unfolds a record update. -/

namespace Sys2Proof.Machine

variable (s : State)

@[simp] theorem withMem_mem (m : Memory) : (withMem m s).mem = m := rfl
@[simp] theorem withMem_regs (m : Memory) : (withMem m s).regs = s.regs := rfl
@[simp] theorem withMem_pc (m : Memory) : (withMem m s).pc = s.pc := rfl
@[simp] theorem withMem_flags (m : Memory) : (withMem m s).flags = s.flags := rfl
@[simp] theorem withMem_run (m : Memory) : (withMem m s).run = s.run := rfl
@[simp] theorem withMem_cause (m : Memory) : (withMem m s).cause = s.cause := rfl
@[simp] theorem withMem_out (m : Memory) : (withMem m s).out = s.out := rfl
@[simp] theorem withMem_cycles (m : Memory) : (withMem m s).cycles = s.cycles := rfl

@[simp] theorem withRegs_mem (x : Vector Byte 8) : (withRegs x s).mem = s.mem := rfl
@[simp] theorem withRegs_regs (x : Vector Byte 8) : (withRegs x s).regs = x := rfl
@[simp] theorem withRegs_pc (x : Vector Byte 8) : (withRegs x s).pc = s.pc := rfl
@[simp] theorem withRegs_flags (x : Vector Byte 8) : (withRegs x s).flags = s.flags := rfl
@[simp] theorem withRegs_run (x : Vector Byte 8) : (withRegs x s).run = s.run := rfl
@[simp] theorem withRegs_cause (x : Vector Byte 8) : (withRegs x s).cause = s.cause := rfl
@[simp] theorem withRegs_out (x : Vector Byte 8) : (withRegs x s).out = s.out := rfl
@[simp] theorem withRegs_cycles (x : Vector Byte 8) : (withRegs x s).cycles = s.cycles := rfl

@[simp] theorem withPc_mem (a : Byte) : (withPc a s).mem = s.mem := rfl
@[simp] theorem withPc_regs (a : Byte) : (withPc a s).regs = s.regs := rfl
@[simp] theorem withPc_pc (a : Byte) : (withPc a s).pc = a := rfl
@[simp] theorem withPc_flags (a : Byte) : (withPc a s).flags = s.flags := rfl
@[simp] theorem withPc_run (a : Byte) : (withPc a s).run = s.run := rfl
@[simp] theorem withPc_cause (a : Byte) : (withPc a s).cause = s.cause := rfl
@[simp] theorem withPc_out (a : Byte) : (withPc a s).out = s.out := rfl
@[simp] theorem withPc_cycles (a : Byte) : (withPc a s).cycles = s.cycles := rfl

@[simp] theorem withFlags_mem (f : Flags) : (withFlags f s).mem = s.mem := rfl
@[simp] theorem withFlags_regs (f : Flags) : (withFlags f s).regs = s.regs := rfl
@[simp] theorem withFlags_pc (f : Flags) : (withFlags f s).pc = s.pc := rfl
@[simp] theorem withFlags_flags (f : Flags) : (withFlags f s).flags = f := rfl
@[simp] theorem withFlags_run (f : Flags) : (withFlags f s).run = s.run := rfl
@[simp] theorem withFlags_cause (f : Flags) : (withFlags f s).cause = s.cause := rfl
@[simp] theorem withFlags_out (f : Flags) : (withFlags f s).out = s.out := rfl
@[simp] theorem withFlags_cycles (f : Flags) : (withFlags f s).cycles = s.cycles := rfl

@[simp] theorem withRun_mem (r : RunState) : (withRun r s).mem = s.mem := rfl
@[simp] theorem withRun_regs (r : RunState) : (withRun r s).regs = s.regs := rfl
@[simp] theorem withRun_pc (r : RunState) : (withRun r s).pc = s.pc := rfl
@[simp] theorem withRun_flags (r : RunState) : (withRun r s).flags = s.flags := rfl
@[simp] theorem withRun_run (r : RunState) : (withRun r s).run = r := rfl
@[simp] theorem withRun_cause (r : RunState) : (withRun r s).cause = s.cause := rfl
@[simp] theorem withRun_out (r : RunState) : (withRun r s).out = s.out := rfl
@[simp] theorem withRun_cycles (r : RunState) : (withRun r s).cycles = s.cycles := rfl

@[simp] theorem withCause_mem (c : Option ErrorKind) : (withCause c s).mem = s.mem := rfl
@[simp] theorem withCause_regs (c : Option ErrorKind) : (withCause c s).regs = s.regs := rfl
@[simp] theorem withCause_pc (c : Option ErrorKind) : (withCause c s).pc = s.pc := rfl
@[simp] theorem withCause_flags (c : Option ErrorKind) : (withCause c s).flags = s.flags := rfl
@[simp] theorem withCause_run (c : Option ErrorKind) : (withCause c s).run = s.run := rfl
@[simp] theorem withCause_cause (c : Option ErrorKind) : (withCause c s).cause = c := rfl
@[simp] theorem withCause_out (c : Option ErrorKind) : (withCause c s).out = s.out := rfl
@[simp] theorem withCause_cycles (c : Option ErrorKind) : (withCause c s).cycles = s.cycles := rfl

@[simp] theorem withOut_mem (o : List Byte) : (withOut o s).mem = s.mem := rfl
@[simp] theorem withOut_regs (o : List Byte) : (withOut o s).regs = s.regs := rfl
@[simp] theorem withOut_pc (o : List Byte) : (withOut o s).pc = s.pc := rfl
@[simp] theorem withOut_flags (o : List Byte) : (withOut o s).flags = s.flags := rfl
@[simp] theorem withOut_run (o : List Byte) : (withOut o s).run = s.run := rfl
@[simp] theorem withOut_cause (o : List Byte) : (withOut o s).cause = s.cause := rfl
@[simp] theorem withOut_out (o : List Byte) : (withOut o s).out = o := rfl
@[simp] theorem withOut_cycles (o : List Byte) : (withOut o s).cycles = s.cycles := rfl

@[simp] theorem withCycles_mem (n : Nat) : (withCycles n s).mem = s.mem := rfl
@[simp] theorem withCycles_regs (n : Nat) : (withCycles n s).regs = s.regs := rfl
@[simp] theorem withCycles_pc (n : Nat) : (withCycles n s).pc = s.pc := rfl
@[simp] theorem withCycles_flags (n : Nat) : (withCycles n s).flags = s.flags := rfl
@[simp] theorem withCycles_run (n : Nat) : (withCycles n s).run = s.run := rfl
@[simp] theorem withCycles_cause (n : Nat) : (withCycles n s).cause = s.cause := rfl
@[simp] theorem withCycles_out (n : Nat) : (withCycles n s).out = s.out := rfl
@[simp] theorem withCycles_cycles (n : Nat) : (withCycles n s).cycles = n := rfl

/-! The same for the named operations built from the updates. -/

@[simp] theorem decSp_mem : (decSp s).mem = s.mem := rfl
@[simp] theorem decSp_regs : (decSp s).regs = s.regs.set 7 (mod256 ((sp s).toNat + 255)) := rfl
@[simp] theorem decSp_pc : (decSp s).pc = s.pc := rfl
@[simp] theorem decSp_flags : (decSp s).flags = s.flags := rfl
@[simp] theorem decSp_run : (decSp s).run = s.run := rfl
@[simp] theorem decSp_cause : (decSp s).cause = s.cause := rfl
@[simp] theorem decSp_out : (decSp s).out = s.out := rfl
@[simp] theorem decSp_cycles : (decSp s).cycles = s.cycles := rfl

@[simp] theorem incSp_mem : (incSp s).mem = s.mem := rfl
@[simp] theorem incSp_regs : (incSp s).regs = s.regs.set 7 (mod256 ((sp s).toNat + 1)) := rfl
@[simp] theorem incSp_pc : (incSp s).pc = s.pc := rfl
@[simp] theorem incSp_flags : (incSp s).flags = s.flags := rfl
@[simp] theorem incSp_run : (incSp s).run = s.run := rfl
@[simp] theorem incSp_cause : (incSp s).cause = s.cause := rfl
@[simp] theorem incSp_out : (incSp s).out = s.out := rfl
@[simp] theorem incSp_cycles : (incSp s).cycles = s.cycles := rfl

@[simp] theorem emit_mem (v : Byte) : (emit v s).mem = s.mem := rfl
@[simp] theorem emit_regs (v : Byte) : (emit v s).regs = s.regs := rfl
@[simp] theorem emit_pc (v : Byte) : (emit v s).pc = s.pc := rfl
@[simp] theorem emit_flags (v : Byte) : (emit v s).flags = s.flags := rfl
@[simp] theorem emit_run (v : Byte) : (emit v s).run = s.run := rfl
@[simp] theorem emit_cause (v : Byte) : (emit v s).cause = s.cause := rfl
@[simp] theorem emit_out (v : Byte) : (emit v s).out = s.out ++ [v] := rfl
@[simp] theorem emit_cycles (v : Byte) : (emit v s).cycles = s.cycles := rfl

@[simp] theorem haltWith_mem (e : ErrorKind) : (haltWith e s).mem = s.mem := rfl
@[simp] theorem haltWith_regs (e : ErrorKind) : (haltWith e s).regs = s.regs := rfl
@[simp] theorem haltWith_pc (e : ErrorKind) : (haltWith e s).pc = s.pc := rfl
@[simp] theorem haltWith_flags (e : ErrorKind) : (haltWith e s).flags = s.flags := rfl
@[simp] theorem haltWith_run (e : ErrorKind) : (haltWith e s).run = .halted := rfl
@[simp] theorem haltWith_cause (e : ErrorKind) : (haltWith e s).cause = some e := rfl
@[simp] theorem haltWith_out (e : ErrorKind) : (haltWith e s).out = s.out := rfl
@[simp] theorem haltWith_cycles (e : ErrorKind) : (haltWith e s).cycles = s.cycles := rfl

@[simp] theorem haltClean_mem : (haltClean s).mem = s.mem := rfl
@[simp] theorem haltClean_regs : (haltClean s).regs = s.regs := rfl
@[simp] theorem haltClean_pc : (haltClean s).pc = s.pc := rfl
@[simp] theorem haltClean_flags : (haltClean s).flags = s.flags := rfl
@[simp] theorem haltClean_run : (haltClean s).run = .halted := rfl
@[simp] theorem haltClean_cause : (haltClean s).cause = none := rfl
@[simp] theorem haltClean_out : (haltClean s).out = s.out := rfl
@[simp] theorem haltClean_cycles : (haltClean s).cycles = s.cycles := rfl

@[simp] theorem advancePc_mem (n : Nat) : (advancePc n s).mem = s.mem := rfl
@[simp] theorem advancePc_regs (n : Nat) : (advancePc n s).regs = s.regs := rfl
@[simp] theorem advancePc_pc (n : Nat) : (advancePc n s).pc = mod256 (s.pc.toNat + n) := rfl
@[simp] theorem advancePc_flags (n : Nat) : (advancePc n s).flags = s.flags := rfl
@[simp] theorem advancePc_run (n : Nat) : (advancePc n s).run = s.run := rfl
@[simp] theorem advancePc_cause (n : Nat) : (advancePc n s).cause = s.cause := rfl
@[simp] theorem advancePc_out (n : Nat) : (advancePc n s).out = s.out := rfl
@[simp] theorem advancePc_cycles (n : Nat) : (advancePc n s).cycles = s.cycles := rfl

@[simp] theorem countCycle_mem : (countCycle s).mem = s.mem := rfl
@[simp] theorem countCycle_regs : (countCycle s).regs = s.regs := rfl
@[simp] theorem countCycle_pc : (countCycle s).pc = s.pc := rfl
@[simp] theorem countCycle_flags : (countCycle s).flags = s.flags := rfl
@[simp] theorem countCycle_run : (countCycle s).run = s.run := rfl
@[simp] theorem countCycle_cause : (countCycle s).cause = s.cause := rfl
@[simp] theorem countCycle_out : (countCycle s).out = s.out := rfl
@[simp] theorem countCycle_cycles : (countCycle s).cycles = s.cycles + 1 := rfl

end Sys2Proof.Machine
end

