-- ==== Sys2Proof/Laws/Memory.lean ====
section
/-! SUPPORT. The laws of memory: a read after a write, and that every memory operation keeps the canonical form. None of
the read laws needs the canonical form. -/

namespace Sys2Proof.Machine

@[simp] theorem mod256_toNat (n : Nat) : (mod256 n).toNat = n % 256 := by simp [mod256]

@[simp] theorem mod256_of_toNat (v : Byte) : mod256 v.toNat = v := by simp [mod256]

@[simp] theorem readByte_nil (a : Nat) : readByte [] a = 0 := rfl

theorem readByte_eraseByte (m : Memory) (a b : Nat) :
    readByte (eraseByte m a) b = if b = a then 0 else readByte m b := by
  induction m with
  | nil => simp [eraseByte]
  | cons c m ih =>
    obtain ⟨k, w⟩ := c
    by_cases hk : k = a
    · have : eraseByte ((k, w) :: m) a = eraseByte m a := by simp [eraseByte, hk]
      rw [this, ih]
      by_cases hb : b = a
      · simp [hb]
      · simp [hb, readByte, hk, show a ≠ b from fun h => hb h.symm]
    · have : eraseByte ((k, w) :: m) a = (k, w) :: eraseByte m a := by simp [eraseByte, hk]
      rw [this]
      by_cases hb : k = b
      · simp [readByte, hb, show b ≠ a from fun h => hk (hb.trans h)]
      · simp [readByte, hb, ih]

theorem readByte_insertByte {m : Memory} {a : Nat} (b : Nat) (v : Byte) (hm : ∀ c ∈ m, c.1 ≠ a) :
    readByte (insertByte m a v) b = if b = a then v else readByte m b := by
  induction m with
  | nil =>
    by_cases hb : b = a
    · simp [insertByte, readByte, hb]
    · simp [insertByte, readByte, hb, show a ≠ b from fun h => hb h.symm]
  | cons c m ih =>
    obtain ⟨k, w⟩ := c
    have hk : k ≠ a := hm (k, w) (by simp)
    have ih := ih fun c hc => hm c (by simp [hc])
    by_cases hlt : a < k
    · by_cases hb : b = a
      · simp [insertByte, hlt, readByte, hb]
      · simp [insertByte, hlt, readByte, hb, show a ≠ b from fun h => hb h.symm]
    · have hi : insertByte ((k, w) :: m) a v = (k, w) :: insertByte m a v := by simp [insertByte, hlt]
      rw [hi]
      by_cases hb : k = b
      · simp [readByte, hb, show b ≠ a from fun h => hk (hb.trans h)]
      · simp [readByte, hb, ih]

theorem eraseByte_no_key (m : Memory) (a : Nat) : ∀ c ∈ eraseByte m a, c.1 ≠ a := by
  intro c hc
  simpa [eraseByte] using (List.mem_filter.mp hc).2

/-- The read law of a write: the stored byte at its address, every other address as before. -/
theorem readByte_writeByte (m : Memory) (a b : Nat) (v : Byte) :
    readByte (writeByte m a v) b = if b = a then v else readByte m b := by
  unfold writeByte
  split
  · next hv => rw [readByte_eraseByte, hv]
  · rw [readByte_insertByte _ _ (eraseByte_no_key m a), readByte_eraseByte]
    split <;> simp_all

theorem eraseByte_wf {m : Memory} (h : Memory.wf m) (a : Nat) : Memory.wf (eraseByte m a) :=
  ⟨h.1.filter _, fun c hc => h.2 c (List.mem_filter.mp hc).1⟩

theorem mem_insertByte {m : Memory} {a : Nat} {v : Byte} {c : Host.Cell} (h : c ∈ insertByte m a v) :
    c = (a, v) ∨ c ∈ m := by
  induction m with
  | nil => simpa [insertByte] using h
  | cons d m ih =>
    obtain ⟨k, w⟩ := d
    unfold insertByte at h
    split at h
    · simpa using h
    · rcases List.mem_cons.mp h with rfl | h
      · simp
      · rcases ih h with h | h <;> simp [h]

theorem insertByte_sorted {m : Memory} {a : Nat} {v : Byte} (h : m.Pairwise fun c d => c.1 < d.1)
    (hm : ∀ c ∈ m, c.1 ≠ a) : (insertByte m a v).Pairwise fun c d => c.1 < d.1 := by
  induction m with
  | nil => simp [insertByte]
  | cons d m ih =>
    obtain ⟨k, w⟩ := d
    have hk : k ≠ a := hm (k, w) (by simp)
    rw [List.pairwise_cons] at h
    unfold insertByte
    split
    · next hlt =>
      refine List.pairwise_cons.mpr ⟨fun c hc => ?_, List.pairwise_cons.mpr h⟩
      rcases List.mem_cons.mp hc with rfl | hc
      · exact hlt
      · exact hlt.trans (h.1 c hc)
    · next hlt =>
      refine List.pairwise_cons.mpr ⟨fun c hc => ?_, ih h.2 fun c hc => hm c (by simp [hc])⟩
      rcases mem_insertByte hc with rfl | hc
      · exact lt_of_le_of_ne (not_lt.mp hlt) hk
      · exact h.1 c hc

/-- A write inside the address space keeps the canonical form. -/
theorem writeByte_wf {m : Memory} (h : Memory.wf m) {a : Nat} (ha : a < 256) (v : Byte) :
    Memory.wf (writeByte m a v) := by
  unfold writeByte
  have he := eraseByte_wf h a
  split
  · exact he
  · next hv =>
    refine ⟨insertByte_sorted he.1 (eraseByte_no_key m a), fun c hc => ?_⟩
    rcases mem_insertByte hc with rfl | hc
    · exact ⟨ha, hv⟩
    · exact he.2 c hc

/-- The reset memory has the canonical form. -/
theorem reset_mem_wf : Memory.wf State.reset.mem := by decide

/-- Laying bytes under a fetch keeps the canonical form. -/
theorem placeBytes_wf (bs : List Byte) : ∀ {m : Memory} (_ : Memory.wf m) (a : Nat), Memory.wf (placeBytes m a bs) := by
  induction bs with
  | nil => exact fun h _ => h
  | cons b bs ih =>
    intro m h a
    unfold placeBytes
    split
    · next ha => exact ih (writeByte_wf h ha b) _
    · exact ih h _

/-- Loading an image that ends inside the address space keeps the canonical form. -/
theorem writeImage_wf (vs : List Nat) :
    ∀ {m : Memory} (_ : Memory.wf m) (a : Nat), a + vs.length ≤ 256 → Memory.wf (writeImage m a vs) := by
  induction vs with
  | nil => exact fun h _ _ => h
  | cons v vs ih =>
    intro m h a ha
    simp only [List.length_cons] at ha
    exact ih (writeByte_wf h (by omega) _) _ (by omega)

/-- `clear()` leaves the canonical form. -/
theorem clearMemory_wf (s : State) : Memory.wf (clearMemory s).mem := reset_mem_wf

/-- `MemRead` in the address space. -/
theorem memRead_of_lt {a : Nat} (h : a < 256) (s : State) : memRead a s = .ok (readByte s.mem a) := by
  simp [memRead, h]

/-- `MemRead` above the address space. -/
theorem memRead_of_ge {a : Nat} (h : 256 ≤ a) (s : State) : memRead a s = .error .addressOutOfRange := by
  simp [memRead, show ¬a < 256 by omega]

/-- `MemWrite` in the address space. -/
theorem memWrite_of_lt {a : Nat} (h : a < 256) (v : Nat) (s : State) :
    memWrite a v s = .ok (withMem (writeByte s.mem a (mod256 v)) s) := by
  simp [memWrite, h]

/-- `MemWrite` above the address space. -/
theorem memWrite_of_ge {a : Nat} (h : 256 ≤ a) (v : Nat) (s : State) : memWrite a v s = .error .addressOutOfRange := by
  simp [memWrite, show ¬a < 256 by omega]

/-- Whatever `MemWrite` stores, memory stays canonical. -/
theorem memWrite_wf {a v : Nat} {s t : State} (hs : Memory.wf s.mem) (h : memWrite a v s = .ok t) : Memory.wf t.mem := by
  by_cases ha : a < 256
  · rw [memWrite_of_lt ha] at h
    cases h
    exact writeByte_wf hs ha _
  · rw [memWrite_of_ge (by omega)] at h
    cases h

end Sys2Proof.Machine
end

