-- ==== Sys2Proof/Laws/Ops.lean ====
section
/-! SUPPORT. One law per shared operation, saying everything it can answer: the register file, the stack, the shapes of
the ALU, and the rules of the other families. Each is an equation between the operation and its cases. -/

namespace Sys2Proof.Machine

/-! Sequencing of rules that may raise. -/

@[simp] theorem bind_ok {α β : Type} (a : α) (f : α → Except ErrorKind β) : (Except.ok a >>= f) = f a := rfl

@[simp] theorem bind_error {α β : Type} (e : ErrorKind) (f : α → Except ErrorKind β) :
    ((Except.error e : Except ErrorKind α) >>= f) = .error e := rfl

@[simp] theorem pure_eq_ok {α : Type} (a : α) : (pure a : Except ErrorKind α) = .ok a := rfl

@[simp] theorem throw_eq_error {α : Type} (e : ErrorKind) : (throw e : Except ErrorKind α) = .error e := rfl

@[simp] theorem conclude_ok (s t : State) : conclude s (.ok t) = .next t := rfl

@[simp] theorem conclude_error (s : State) (e : ErrorKind) : conclude s (.error e) = .next (haltWith e s) := rfl

/-! The register file. -/

theorem readReg_of_lt {i : Nat} (h : i < 8) (s : State) : readReg i s = .ok s.regs[i] := by simp [readReg, h]

theorem readReg_of_ge {i : Nat} (h : 8 ≤ i) (s : State) : readReg i s = .error .registerOutOfRange := by
  simp [readReg, show ¬i < 8 by omega]

theorem writeReg_of_lt {i : Nat} (h : i < 8) (v : Nat) (s : State) :
    writeReg i v s = .ok (withRegs (s.regs.set i (mod256 v)) s) := by simp [writeReg, h]

theorem writeReg_of_ge {i : Nat} (h : 8 ≤ i) (v : Nat) (s : State) :
    writeReg i v s = .error .registerOutOfRange := by simp [writeReg, show ¬i < 8 by omega]

/-! The stack: SP always names an address, so neither access can fail. -/

theorem topAddress_lt (s : State) : topAddress s < 256 := (sp s).isLt

@[simp] theorem loadTop_eq (s : State) : loadTop s = .ok (readByte s.mem (topAddress s)) :=
  memRead_of_lt (topAddress_lt s) s

@[simp] theorem storeTop_eq (v : Nat) (s : State) :
    storeTop v s = .ok (withMem (writeByte s.mem (topAddress s) (mod256 v)) s) :=
  memWrite_of_lt (topAddress_lt s) v s

/-! The ALU's shapes. -/

/-- Both registers exist: the ALU's result is written, or its condition is raised. -/
theorem aluBinary_of_lt (f : Byte → Byte → AluResult) {ra rb : Nat} (ha : ra < 8) (hb : rb < 8) (s : State) :
    aluBinary f ra rb s =
      match f s.regs[ra] s.regs[rb] with
      | .ok v => .ok (advancePc 3 (withRegs (s.regs.set ra v) s))
      | .error c => .error (aluError c) := by
  simp only [aluBinary, readReg_of_lt ha, readReg_of_lt hb, bind_ok, writeReg_of_lt ha]
  cases f s.regs[ra] s.regs[rb] <;> simp [fromAlu]

/-- A register does not exist. -/
theorem aluBinary_of_ge (f : Byte → Byte → AluResult) {ra rb : Nat} (h : 8 ≤ ra ∨ 8 ≤ rb) (s : State) :
    aluBinary f ra rb s = .error .registerOutOfRange := by
  unfold aluBinary
  by_cases ha : 8 ≤ ra
  · simp [readReg_of_ge ha]
  · have hb : 8 ≤ rb := by omega
    simp [readReg_of_lt (show ra < 8 by omega), readReg_of_ge hb]

theorem aluUnary_of_lt (f : Byte → AluResult) {ra : Nat} (ha : ra < 8) (s : State) :
    aluUnary f ra s =
      match f s.regs[ra] with
      | .ok v => .ok (advancePc 3 (withRegs (s.regs.set ra v) s))
      | .error c => .error (aluError c) := by
  simp only [aluUnary, readReg_of_lt ha, bind_ok, writeReg_of_lt ha]
  cases f s.regs[ra] <;> simp [fromAlu]

theorem aluUnary_of_ge (f : Byte → AluResult) {ra : Nat} (h : 8 ≤ ra) (s : State) :
    aluUnary f ra s = .error .registerOutOfRange := by simp [aluUnary, readReg_of_ge h]

theorem aluCompare_of_lt (f : Byte → Byte → Flags) {ra rb : Nat} (ha : ra < 8) (hb : rb < 8) (s : State) :
    aluCompare f ra rb s = .ok (advancePc 3 (withFlags (f s.regs[ra] s.regs[rb]) s)) := by
  simp [aluCompare, readReg_of_lt ha, readReg_of_lt hb]

theorem aluCompare_of_ge (f : Byte → Byte → Flags) {ra rb : Nat} (h : 8 ≤ ra ∨ 8 ≤ rb) (s : State) :
    aluCompare f ra rb s = .error .registerOutOfRange := by
  unfold aluCompare
  by_cases ha : 8 ≤ ra
  · simp [readReg_of_ge ha]
  · have hb : 8 ≤ rb := by omega
    simp [readReg_of_lt (show ra < 8 by omega), readReg_of_ge hb]

/-! The rules of the other families, where the register named exists and where it does not. -/

theorem loadImmediate_of_lt {ra : Nat} (h : ra < 8) (imm : Byte) (s : State) :
    loadImmediate ra imm s = .ok (advancePc 3 (withRegs (s.regs.set ra imm) s)) := by
  simp [loadImmediate, writeReg_of_lt h]

theorem loadImmediate_of_ge {ra : Nat} (h : 8 ≤ ra) (imm : Byte) (s : State) :
    loadImmediate ra imm s = .error .registerOutOfRange := by simp [loadImmediate, writeReg_of_ge h]

theorem pushRegister_of_lt {ra : Nat} (h : ra < 8) (s : State) :
    pushRegister ra s =
      .ok (advancePc 2 (withMem (writeByte s.mem (topAddress (decSp s)) (decSp s).regs[ra]) (decSp s))) := by
  simp [pushRegister, readReg_of_lt h]

theorem pushRegister_of_ge {ra : Nat} (h : 8 ≤ ra) (s : State) :
    pushRegister ra s = .error .registerOutOfRange := by simp [pushRegister, readReg_of_ge h]

theorem popRegister_of_lt {ra : Nat} (h : ra < 8) (s : State) :
    popRegister ra s =
      .ok (advancePc 2 (incSp (withRegs (s.regs.set ra (readByte s.mem (topAddress s))) s))) := by
  simp [popRegister, writeReg_of_lt h]

theorem popRegister_of_ge {ra : Nat} (h : 8 ≤ ra) (s : State) :
    popRegister ra s = .error .registerOutOfRange := by simp [popRegister, writeReg_of_ge h]

theorem jumpTo_of_lt {ra : Nat} (h : ra < 8) (s : State) : jumpTo ra s = .ok (withPc s.regs[ra] s) := by
  simp [jumpTo, readReg_of_lt h]

theorem jumpTo_of_ge {ra : Nat} (h : 8 ≤ ra) (s : State) : jumpTo ra s = .error .registerOutOfRange := by
  simp [jumpTo, readReg_of_ge h]

theorem branchIf_not_taken (ra : Nat) (s : State) : branchIf false ra s = .ok (advancePc 2 s) := rfl

theorem branchIf_taken (ra : Nat) (s : State) : branchIf true ra s = jumpTo ra s := rfl

/-- CALL's rule: the target is read from the state after the push. -/
theorem callRegister_eq (ra : Nat) (s : State) :
    callRegister ra s =
      jumpTo ra (withMem (writeByte s.mem (topAddress (decSp s)) (mod256 (s.pc.toNat + 2))) (decSp s)) := by
  simp [callRegister]

theorem returnFromCall_eq (s : State) :
    returnFromCall s = .ok (withPc (readByte s.mem (topAddress s)) (incSp s)) := by simp [returnFromCall]

theorem printRegister_of_lt {ra : Nat} (h : ra < 8) (s : State) :
    printRegister ra s = .ok (advancePc 2 (emit s.regs[ra] s)) := by simp [printRegister, readReg_of_lt h]

theorem printRegister_of_ge {ra : Nat} (h : 8 ≤ ra) (s : State) :
    printRegister ra s = .error .registerOutOfRange := by simp [printRegister, readReg_of_ge h]

/-- CMP sets exactly one flag: it is one of three values, by the unsigned order. -/
theorem compareFlags_eq (va vb : Byte) :
    compareFlags va vb =
      { equal := decide (va = vb), greater := decide (vb.toNat < va.toNat), less := decide (va.toNat < vb.toNat) } := by
  unfold compareFlags
  split
  · next h => simp [h]
  · next h =>
    have hne : va.toNat ≠ vb.toNat := fun he => h (BitVec.eq_of_toNat_eq he)
    split
    · next hlt => simp [h, hlt, show ¬va.toNat < vb.toNat by omega]
    · next hge => simp [h, hge, show va.toNat < vb.toNat by omega]

/-! The same laws read backwards: what is known of a rule that raised nothing, and of one that raised an error. -/

theorem aluBinary_inv {f : Byte → Byte → AluResult} {ra rb : Nat} {s t : State} (h : aluBinary f ra rb s = .ok t) :
    ∃ (_ : ra < 8) (_ : rb < 8) (v : Byte),
      f s.regs[ra] s.regs[rb] = .ok v ∧ t = advancePc 3 (withRegs (s.regs.set ra v) s) := by
  by_cases hu : 8 ≤ ra ∨ 8 ≤ rb
  · rw [aluBinary_of_ge f hu] at h; cases h
  · have ha : ra < 8 := by omega
    have hb : rb < 8 := by omega
    rw [aluBinary_of_lt f ha hb] at h
    cases hv : f s.regs[ra] s.regs[rb] with
    | ok v => rw [hv] at h; cases h; exact ⟨ha, hb, v, hv, rfl⟩
    | error c => rw [hv] at h; cases h

theorem aluBinary_error {f : Byte → Byte → AluResult} {ra rb : Nat} {s : State} {e : ErrorKind}
    (h : aluBinary f ra rb s = .error e) :
    ((8 ≤ ra ∨ 8 ≤ rb) ∧ e = .registerOutOfRange) ∨
      ∃ (_ : ra < 8) (_ : rb < 8) (c : AluCondition), f s.regs[ra] s.regs[rb] = .error c ∧ e = aluError c := by
  by_cases hu : 8 ≤ ra ∨ 8 ≤ rb
  · rw [aluBinary_of_ge f hu] at h; cases h; exact .inl ⟨hu, rfl⟩
  · have ha : ra < 8 := by omega
    have hb : rb < 8 := by omega
    rw [aluBinary_of_lt f ha hb] at h
    cases hv : f s.regs[ra] s.regs[rb] with
    | ok v => rw [hv] at h; cases h
    | error c => rw [hv] at h; cases h; exact .inr ⟨ha, hb, c, hv, rfl⟩

theorem aluUnary_inv {f : Byte → AluResult} {ra : Nat} {s t : State} (h : aluUnary f ra s = .ok t) :
    ∃ (_ : ra < 8) (v : Byte), f s.regs[ra] = .ok v ∧ t = advancePc 3 (withRegs (s.regs.set ra v) s) := by
  by_cases ha : ra < 8
  · rw [aluUnary_of_lt f ha] at h
    cases hv : f s.regs[ra] with
    | ok v => rw [hv] at h; cases h; exact ⟨ha, v, hv, rfl⟩
    | error c => rw [hv] at h; cases h
  · rw [aluUnary_of_ge f (by omega)] at h; cases h

theorem aluUnary_error {f : Byte → AluResult} {ra : Nat} {s : State} {e : ErrorKind} (h : aluUnary f ra s = .error e) :
    (8 ≤ ra ∧ e = .registerOutOfRange) ∨ ∃ (_ : ra < 8) (c : AluCondition), f s.regs[ra] = .error c ∧ e = aluError c := by
  by_cases ha : ra < 8
  · rw [aluUnary_of_lt f ha] at h
    cases hv : f s.regs[ra] with
    | ok v => rw [hv] at h; cases h
    | error c => rw [hv] at h; cases h; exact .inr ⟨ha, c, hv, rfl⟩
  · rw [aluUnary_of_ge f (by omega)] at h; cases h; exact .inl ⟨by omega, rfl⟩

theorem aluCompare_inv {f : Byte → Byte → Flags} {ra rb : Nat} {s t : State} (h : aluCompare f ra rb s = .ok t) :
    ∃ (_ : ra < 8) (_ : rb < 8), t = advancePc 3 (withFlags (f s.regs[ra] s.regs[rb]) s) := by
  by_cases hu : 8 ≤ ra ∨ 8 ≤ rb
  · rw [aluCompare_of_ge f hu] at h; cases h
  · have ha : ra < 8 := by omega
    have hb : rb < 8 := by omega
    rw [aluCompare_of_lt f ha hb] at h; cases h; exact ⟨ha, hb, rfl⟩

theorem aluCompare_error {f : Byte → Byte → Flags} {ra rb : Nat} {s : State} {e : ErrorKind}
    (h : aluCompare f ra rb s = .error e) : (8 ≤ ra ∨ 8 ≤ rb) ∧ e = .registerOutOfRange := by
  by_cases hu : 8 ≤ ra ∨ 8 ≤ rb
  · rw [aluCompare_of_ge f hu] at h; cases h; exact ⟨hu, rfl⟩
  · rw [aluCompare_of_lt f (show ra < 8 by omega) (show rb < 8 by omega)] at h; cases h

theorem loadImmediate_inv {ra : Nat} {imm : Byte} {s t : State} (h : loadImmediate ra imm s = .ok t) :
    ∃ _ : ra < 8, t = advancePc 3 (withRegs (s.regs.set ra imm) s) := by
  by_cases ha : ra < 8
  · rw [loadImmediate_of_lt ha] at h; cases h; exact ⟨ha, rfl⟩
  · rw [loadImmediate_of_ge (by omega)] at h; cases h

theorem loadImmediate_error {ra : Nat} {imm : Byte} {s : State} {e : ErrorKind} (h : loadImmediate ra imm s = .error e) :
    8 ≤ ra ∧ e = .registerOutOfRange := by
  by_cases ha : ra < 8
  · rw [loadImmediate_of_lt ha] at h; cases h
  · rw [loadImmediate_of_ge (by omega)] at h; cases h; exact ⟨by omega, rfl⟩

theorem pushRegister_inv {ra : Nat} {s t : State} (h : pushRegister ra s = .ok t) :
    ∃ _ : ra < 8, t = 
      advancePc 2 (withMem (writeByte s.mem (topAddress (decSp s)) (decSp s).regs[ra]) (decSp s)) := by
  by_cases ha : ra < 8
  · rw [pushRegister_of_lt ha] at h; cases h; exact ⟨ha, rfl⟩
  · rw [pushRegister_of_ge (by omega)] at h; cases h

theorem pushRegister_error {ra : Nat} {s : State} {e : ErrorKind} (h : pushRegister ra s = .error e) :
    8 ≤ ra ∧ e = .registerOutOfRange := by
  by_cases ha : ra < 8
  · rw [pushRegister_of_lt ha] at h; cases h
  · rw [pushRegister_of_ge (by omega)] at h; cases h; exact ⟨by omega, rfl⟩

theorem popRegister_inv {ra : Nat} {s t : State} (h : popRegister ra s = .ok t) :
    ∃ _ : ra < 8, t = 
      advancePc 2 (incSp (withRegs (s.regs.set ra (readByte s.mem (topAddress s))) s)) := by
  by_cases ha : ra < 8
  · rw [popRegister_of_lt ha] at h; cases h; exact ⟨ha, rfl⟩
  · rw [popRegister_of_ge (by omega)] at h; cases h

theorem popRegister_error {ra : Nat} {s : State} {e : ErrorKind} (h : popRegister ra s = .error e) :
    8 ≤ ra ∧ e = .registerOutOfRange := by
  by_cases ha : ra < 8
  · rw [popRegister_of_lt ha] at h; cases h
  · rw [popRegister_of_ge (by omega)] at h; cases h; exact ⟨by omega, rfl⟩

theorem jumpTo_inv {ra : Nat} {s t : State} (h : jumpTo ra s = .ok t) :
    ∃ _ : ra < 8, t = withPc s.regs[ra] s := by
  by_cases ha : ra < 8
  · rw [jumpTo_of_lt ha] at h; cases h; exact ⟨ha, rfl⟩
  · rw [jumpTo_of_ge (by omega)] at h; cases h

theorem jumpTo_error {ra : Nat} {s : State} {e : ErrorKind} (h : jumpTo ra s = .error e) :
    8 ≤ ra ∧ e = .registerOutOfRange := by
  by_cases ha : ra < 8
  · rw [jumpTo_of_lt ha] at h; cases h
  · rw [jumpTo_of_ge (by omega)] at h; cases h; exact ⟨by omega, rfl⟩

theorem printRegister_inv {ra : Nat} {s t : State} (h : printRegister ra s = .ok t) :
    ∃ _ : ra < 8, t = advancePc 2 (emit s.regs[ra] s) := by
  by_cases ha : ra < 8
  · rw [printRegister_of_lt ha] at h; cases h; exact ⟨ha, rfl⟩
  · rw [printRegister_of_ge (by omega)] at h; cases h

theorem printRegister_error {ra : Nat} {s : State} {e : ErrorKind} (h : printRegister ra s = .error e) :
    8 ≤ ra ∧ e = .registerOutOfRange := by
  by_cases ha : ra < 8
  · rw [printRegister_of_lt ha] at h; cases h
  · rw [printRegister_of_ge (by omega)] at h; cases h; exact ⟨by omega, rfl⟩

theorem branchIf_inv {taken : Bool} {ra : Nat} {s t : State} (h : branchIf taken ra s = .ok t) :
    (taken = false ∧ t = advancePc 2 s) ∨ taken = true ∧ ∃ _ : ra < 8, t = withPc s.regs[ra] s := by
  cases taken with
  | false => cases h; exact .inl ⟨rfl, rfl⟩
  | true => exact .inr ⟨rfl, jumpTo_inv h⟩

theorem branchIf_error {taken : Bool} {ra : Nat} {s : State} {e : ErrorKind} (h : branchIf taken ra s = .error e) :
    taken = true ∧ 8 ≤ ra ∧ e = .registerOutOfRange := by
  cases taken with
  | false => cases h
  | true => exact ⟨rfl, jumpTo_error h⟩

end Sys2Proof.Machine
end

