-- ==== Sys2Proof/Laws/Exec.lean ====
section
/-! SUPPORT. What `exec` and `step` can do, said once: every instruction's meaning is the precise conclusion of one
rule; the fetch by its three cases; the step by the run state. -/

namespace Sys2Proof.Machine

/-- The rule an instruction performs inside an iteration (R78), before it is committed or abandoned. -/
def ruleOf : Instr → State → Except ErrorKind State
  | .ldi ra imm => loadImmediate ra imm
  | .prn ra => printRegister ra
  | .hlt => fun s => .ok (haltClean s)
  | .mul ra rb => aluBinary aluMul ra rb
  | .add ra rb => aluBinary aluAdd ra rb
  | .push ra => pushRegister ra
  | .pop ra => popRegister ra
  | .call ra => callRegister ra
  | .ret => returnFromCall
  | .cmp ra rb => aluCompare compareFlags ra rb
  | .jmp ra => jumpTo ra
  | .jeq ra => fun s => branchIf (jeqTaken s) ra s
  | .jne ra => fun s => branchIf (jneTaken s) ra s
  | .and ra rb => aluBinary aluAnd ra rb
  | .or ra rb => aluBinary aluOr ra rb
  | .xor ra rb => aluBinary aluXor ra rb
  | .not ra _ => aluUnary aluNot ra
  | .shl ra rb => aluBinary aluShl ra rb
  | .shr ra rb => aluBinary aluShr ra rb
  | .mod ra rb => aluBinary aluMod ra rb

theorem exec_eq_conclude (i : Instr) (s : State) : exec i s = conclude s (ruleOf i s) := by cases i <;> rfl

/-- What an instruction can answer: its rule's state, or the precise error halt. -/
theorem exec_cases {i : Instr} {s t : State} (h : exec i s = .next t) :
    ruleOf i s = .ok t ∨ ∃ e, ruleOf i s = .error e ∧ t = haltWith e s := by
  rw [exec_eq_conclude] at h
  cases hr : ruleOf i s with
  | ok u => rw [hr] at h; cases h; exact .inl rfl
  | error e => rw [hr] at h; cases h; exact .inr ⟨e, rfl, rfl⟩

/-- Which errors a rule can raise: RegisterOutOfRange, and then a register the table of R24 names for it does not exist;
or ArithmeticError, and then it is MOD with a zero divisor. -/
theorem ruleOf_error {i : Instr} {s : State} {e : ErrorKind} (h : ruleOf i s = .error e) :
    (e = .registerOutOfRange ∧ ∃ j, 8 ≤ j ∧ (readsReg s.flags.equal i j ∨ writesReg i j)) ∨
      e = .arithmeticError ∧ ∃ (ra rb : Nat) (_ : ra < 8) (_ : rb < 8), i = .mod ra rb ∧ s.regs[rb].toNat = 0 := by
  have alu : ∀ {f ra rb}, (∀ va vb, ∃ v, f va vb = .ok v) → aluBinary f ra rb s = .error e →
      e = .registerOutOfRange ∧ ∃ j, 8 ≤ j ∧ (j = ra ∨ j = rb) := by
    intro f ra rb hf h
    rcases aluBinary_error h with ⟨hu, he⟩ | ⟨_, _, c, hc, _⟩
    · exact ⟨he, hu.elim (fun h => ⟨ra, h, .inl rfl⟩) fun h => ⟨rb, h, .inr rfl⟩⟩
    · obtain ⟨v, hv⟩ := hf s.regs[ra] s.regs[rb]
      rw [hv] at hc; cases hc
  cases i with
  | ldi ra imm => obtain ⟨h8, he⟩ := loadImmediate_error h; exact .inl ⟨he, ra, h8, .inr rfl⟩
  | prn ra => obtain ⟨h8, he⟩ := printRegister_error h; exact .inl ⟨he, ra, h8, .inl rfl⟩
  | hlt => cases h
  | mul ra rb => obtain ⟨he, j, h8, hj⟩ := alu (fun _ _ => ⟨_, rfl⟩) h; exact .inl ⟨he, j, h8, .inl hj⟩
  | add ra rb => obtain ⟨he, j, h8, hj⟩ := alu (fun _ _ => ⟨_, rfl⟩) h; exact .inl ⟨he, j, h8, .inl hj⟩
  | push ra => obtain ⟨h8, he⟩ := pushRegister_error h; exact .inl ⟨he, ra, h8, .inl (.inr rfl)⟩
  | pop ra => obtain ⟨h8, he⟩ := popRegister_error h; exact .inl ⟨he, ra, h8, .inr (.inl rfl)⟩
  | call ra =>
    rw [ruleOf, callRegister_eq] at h
    obtain ⟨h8, he⟩ := jumpTo_error h; exact .inl ⟨he, ra, h8, .inl (.inr rfl)⟩
  | ret => rw [ruleOf, returnFromCall_eq] at h; cases h
  | cmp ra rb =>
    obtain ⟨hu, he⟩ := aluCompare_error h
    exact .inl ⟨he, hu.elim (fun h => ⟨ra, h, .inl (.inl rfl)⟩) fun h => ⟨rb, h, .inl (.inr rfl)⟩⟩
  | jmp ra => obtain ⟨h8, he⟩ := jumpTo_error h; exact .inl ⟨he, ra, h8, .inl rfl⟩
  | jeq ra => obtain ⟨ht, h8, he⟩ := branchIf_error h; exact .inl ⟨he, ra, h8, .inl ⟨ht, rfl⟩⟩
  | jne ra =>
    obtain ⟨ht, h8, he⟩ := branchIf_error h
    exact .inl ⟨he, ra, h8, .inl ⟨by simpa [jneTaken] using ht, rfl⟩⟩
  | and ra rb => obtain ⟨he, j, h8, hj⟩ := alu (fun _ _ => ⟨_, rfl⟩) h; exact .inl ⟨he, j, h8, .inl hj⟩
  | or ra rb => obtain ⟨he, j, h8, hj⟩ := alu (fun _ _ => ⟨_, rfl⟩) h; exact .inl ⟨he, j, h8, .inl hj⟩
  | xor ra rb => obtain ⟨he, j, h8, hj⟩ := alu (fun _ _ => ⟨_, rfl⟩) h; exact .inl ⟨he, j, h8, .inl hj⟩
  | not ra pad =>
    rcases aluUnary_error h with ⟨h8, he⟩ | ⟨_, c, hc, _⟩
    · exact .inl ⟨he, ra, h8, .inl rfl⟩
    · cases hc
  | shl ra rb => obtain ⟨he, j, h8, hj⟩ := alu (fun _ _ => ⟨_, rfl⟩) h; exact .inl ⟨he, j, h8, .inl hj⟩
  | shr ra rb => obtain ⟨he, j, h8, hj⟩ := alu (fun _ _ => ⟨_, rfl⟩) h; exact .inl ⟨he, j, h8, .inl hj⟩
  | mod ra rb =>
    rcases aluBinary_error h with ⟨hu, he⟩ | ⟨ha, hb, c, hc, he⟩
    · exact .inl ⟨he, hu.elim (fun h => ⟨ra, h, .inl (.inl rfl)⟩) fun h => ⟨rb, h, .inl (.inr rfl)⟩⟩
    · cases c
      refine .inr ⟨he, ra, rb, ha, hb, rfl, ?_⟩
      unfold aluMod at hc
      split at hc
      · assumption
      · cases hc

/-- A rule that raised nothing leaves the count alone, and the run state and the cause too unless it is HLT's. -/
theorem ruleOf_ok_run {i : Instr} {s t : State} (h : ruleOf i s = .ok t) :
    t.cycles = s.cycles ∧ ((i = .hlt ∧ t = haltClean s) ∨ i ≠ .hlt ∧ t.run = s.run ∧ t.cause = s.cause) := by
  cases i with
  | ldi ra imm => obtain ⟨_, rfl⟩ := loadImmediate_inv h; simp
  | prn ra => obtain ⟨_, rfl⟩ := printRegister_inv h; simp
  | hlt => cases h; simp
  | push ra => obtain ⟨_, rfl⟩ := pushRegister_inv h; simp
  | pop ra => obtain ⟨_, rfl⟩ := popRegister_inv h; simp
  | call ra => rw [ruleOf, callRegister_eq] at h; obtain ⟨_, rfl⟩ := jumpTo_inv h; simp
  | ret => rw [ruleOf, returnFromCall_eq] at h; cases h; simp
  | cmp ra rb => obtain ⟨_, _, rfl⟩ := aluCompare_inv h; simp
  | jmp ra => obtain ⟨_, rfl⟩ := jumpTo_inv h; simp
  | jeq ra => rcases branchIf_inv h with ⟨_, rfl⟩ | ⟨_, _, rfl⟩ <;> simp
  | jne ra => rcases branchIf_inv h with ⟨_, rfl⟩ | ⟨_, _, rfl⟩ <;> simp
  | not ra pad => obtain ⟨_, _, _, rfl⟩ := aluUnary_inv h; simp
  | mul ra rb => obtain ⟨_, _, _, _, rfl⟩ := aluBinary_inv h; simp
  | add ra rb => obtain ⟨_, _, _, _, rfl⟩ := aluBinary_inv h; simp
  | and ra rb => obtain ⟨_, _, _, _, rfl⟩ := aluBinary_inv h; simp
  | or ra rb => obtain ⟨_, _, _, _, rfl⟩ := aluBinary_inv h; simp
  | xor ra rb => obtain ⟨_, _, _, _, rfl⟩ := aluBinary_inv h; simp
  | shl ra rb => obtain ⟨_, _, _, _, rfl⟩ := aluBinary_inv h; simp
  | shr ra rb => obtain ⟨_, _, _, _, rfl⟩ := aluBinary_inv h; simp
  | mod ra rb => obtain ⟨_, _, _, _, rfl⟩ := aluBinary_inv h; simp

/-- CMP leaves exactly one flag set. -/
theorem compareFlags_oneFlag (va vb : Byte) : OneFlag (compareFlags va vb) := by
  unfold compareFlags
  split
  · exact .inl rfl
  · split
    · exact .inr (.inl rfl)
    · exact .inr (.inr rfl)

/-- Where a register the table of R24 names for an instruction does not exist, its rule raises RegisterOutOfRange. -/
theorem ruleOf_missing {i : Instr} {s : State} {j : Nat} (h8 : 8 ≤ j)
    (hj : readsReg s.flags.equal i j ∨ writesReg i j) : ruleOf i s = .error .registerOutOfRange := by
  cases i with
  | ldi ra imm => simp only [readsReg, writesReg, false_or] at hj; exact loadImmediate_of_ge (by omega) _ _
  | prn ra => simp only [readsReg, writesReg, or_false] at hj; exact printRegister_of_ge (by omega) _
  | hlt => simp [readsReg, writesReg] at hj
  | push ra => simp only [readsReg, writesReg] at hj; exact pushRegister_of_ge (by omega) _
  | pop ra => simp only [readsReg, writesReg] at hj; exact popRegister_of_ge (by omega) _
  | call ra => simp only [readsReg, writesReg] at hj; rw [ruleOf, callRegister_eq]; exact jumpTo_of_ge (by omega) _
  | ret => simp only [readsReg, writesReg] at hj; omega
  | cmp ra rb => simp only [readsReg, writesReg, or_false] at hj; exact aluCompare_of_ge _ (by omega) _
  | jmp ra => simp only [readsReg, writesReg, or_false] at hj; exact jumpTo_of_ge (by omega) _
  | jeq ra =>
    simp only [readsReg, writesReg, or_false] at hj
    simp only [ruleOf, jeqTaken, hj.1]
    exact jumpTo_of_ge (by omega) _
  | jne ra =>
    simp only [readsReg, writesReg, or_false] at hj
    simp only [ruleOf, jneTaken, hj.1]
    exact jumpTo_of_ge (by omega) _
  | not ra pad => simp only [readsReg, writesReg] at hj; exact aluUnary_of_ge _ (by omega) _
  | _ ra rb => simp only [readsReg, writesReg] at hj; exact aluBinary_of_ge _ (by omega) _

/-- A rule that raised nothing leaves the flags alone, unless it is CMP's, which leaves exactly one set. -/
theorem ruleOf_ok_flags {i : Instr} {s t : State} (h : ruleOf i s = .ok t) :
    t.flags = s.flags ∨ ((∃ a b, i = .cmp a b) ∧ OneFlag t.flags) := by
  cases i with
  | ldi ra imm => obtain ⟨_, rfl⟩ := loadImmediate_inv h; simp
  | prn ra => obtain ⟨_, rfl⟩ := printRegister_inv h; simp
  | hlt => cases h; simp
  | push ra => obtain ⟨_, rfl⟩ := pushRegister_inv h; simp
  | pop ra => obtain ⟨_, rfl⟩ := popRegister_inv h; simp
  | call ra => rw [ruleOf, callRegister_eq] at h; obtain ⟨_, rfl⟩ := jumpTo_inv h; simp
  | ret => rw [ruleOf, returnFromCall_eq] at h; cases h; simp
  | cmp ra rb => obtain ⟨_, _, rfl⟩ := aluCompare_inv h; exact .inr ⟨⟨_, _, rfl⟩, compareFlags_oneFlag _ _⟩
  | jmp ra => obtain ⟨_, rfl⟩ := jumpTo_inv h; simp
  | jeq ra => rcases branchIf_inv h with ⟨_, rfl⟩ | ⟨_, _, rfl⟩ <;> simp
  | jne ra => rcases branchIf_inv h with ⟨_, rfl⟩ | ⟨_, _, rfl⟩ <;> simp
  | not ra pad => obtain ⟨_, _, _, rfl⟩ := aluUnary_inv h; simp
  | _ ra rb => obtain ⟨_, _, _, _, rfl⟩ := aluBinary_inv h; simp

/-- A rule that raised nothing leaves the output alone, unless it is PRN's, which appends its register's value. -/
theorem ruleOf_ok_out {i : Instr} {s t : State} (h : ruleOf i s = .ok t) :
    t.out = s.out ∨ ∃ (a : Nat) (ha : a < 8), i = .prn a ∧ t.out = s.out ++ [s.regs[a]] := by
  cases i with
  | ldi ra imm => obtain ⟨_, rfl⟩ := loadImmediate_inv h; simp
  | prn ra => obtain ⟨ha, rfl⟩ := printRegister_inv h; exact .inr ⟨ra, ha, rfl, rfl⟩
  | hlt => cases h; simp
  | push ra => obtain ⟨_, rfl⟩ := pushRegister_inv h; simp
  | pop ra => obtain ⟨_, rfl⟩ := popRegister_inv h; simp
  | call ra => rw [ruleOf, callRegister_eq] at h; obtain ⟨_, rfl⟩ := jumpTo_inv h; simp
  | ret => rw [ruleOf, returnFromCall_eq] at h; cases h; simp
  | cmp ra rb => obtain ⟨_, _, rfl⟩ := aluCompare_inv h; simp
  | jmp ra => obtain ⟨_, rfl⟩ := jumpTo_inv h; simp
  | jeq ra => rcases branchIf_inv h with ⟨_, rfl⟩ | ⟨_, _, rfl⟩ <;> simp
  | jne ra => rcases branchIf_inv h with ⟨_, rfl⟩ | ⟨_, _, rfl⟩ <;> simp
  | not ra pad => obtain ⟨_, _, _, rfl⟩ := aluUnary_inv h; simp
  | _ ra rb => obtain ⟨_, _, _, _, rfl⟩ := aluBinary_inv h; simp

/-- A rule that raised nothing leaves memory alone, unless it is PUSH's or CALL's, which writes one byte below SP. -/
theorem ruleOf_ok_mem {i : Instr} {s t : State} (h : ruleOf i s = .ok t) :
    t.mem = s.mem ∨
      (∃ v, t.mem = writeByte s.mem (topAddress (decSp s)) v) ∧ ∃ a, i = .push a ∨ i = .call a := by
  cases i with
  | ldi ra imm => obtain ⟨_, rfl⟩ := loadImmediate_inv h; simp
  | prn ra => obtain ⟨ha, rfl⟩ := printRegister_inv h; simp
  | hlt => cases h; simp
  | push ra => obtain ⟨_, rfl⟩ := pushRegister_inv h; exact .inr ⟨⟨_, rfl⟩, _, .inl rfl⟩
  | pop ra => obtain ⟨_, rfl⟩ := popRegister_inv h; simp
  | call ra => rw [ruleOf, callRegister_eq] at h; obtain ⟨_, rfl⟩ := jumpTo_inv h; exact .inr ⟨⟨_, rfl⟩, _, .inr rfl⟩
  | ret => rw [ruleOf, returnFromCall_eq] at h; cases h; simp
  | cmp ra rb => obtain ⟨_, _, rfl⟩ := aluCompare_inv h; simp
  | jmp ra => obtain ⟨_, rfl⟩ := jumpTo_inv h; simp
  | jeq ra => rcases branchIf_inv h with ⟨_, rfl⟩ | ⟨_, _, rfl⟩ <;> simp
  | jne ra => rcases branchIf_inv h with ⟨_, rfl⟩ | ⟨_, _, rfl⟩ <;> simp
  | not ra pad => obtain ⟨_, _, _, rfl⟩ := aluUnary_inv h; simp
  | _ ra rb => obtain ⟨_, _, _, _, rfl⟩ := aluBinary_inv h; simp

/-! The fetch. -/

theorem fetchBytes_of_le (s : State) (n : Nat) : ∀ a, a + n ≤ 256 →
    fetchBytes s a n = .ok ((List.range n).map fun k => readByte s.mem (a + k)) := by
  induction n with
  | zero => intro a _; rfl
  | succ n ih =>
    intro a h
    simp only [fetchBytes, memRead_of_lt (show a < 256 by omega), ih (a + 1) (by omega), bind_ok, pure_eq_ok,
      List.range_succ_eq_map, List.map_cons, List.map_map, Nat.add_zero]
    congr 3
    funext k
    simp [Nat.add_assoc, Nat.add_comm 1 k]

theorem fetchBytes_of_gt (s : State) (n : Nat) : ∀ a, a ≤ 256 → 256 < a + n →
    fetchBytes s a n = .error .addressOutOfRange := by
  induction n with
  | zero => intro a _ _; omega
  | succ n ih =>
    intro a h h'
    by_cases ha : a < 256
    · simp [fetchBytes, memRead_of_lt ha, ih (a + 1) (by omega) (by omega)]
    · simp [fetchBytes, memRead_of_ge (show 256 ≤ a by omega)]

theorem formLength_bounds (f : OpForm) : 1 ≤ formLength f ∧ formLength f ≤ 3 := by
  cases f <;> simp [formLength]

/-- The fetch by its three cases: illegal opcode; operand bytes past the top of memory; the instruction the bytes make. -/
theorem fetch_eq (s : State) :
    fetch s =
      match opForm (readByte s.mem s.pc.toNat) with
      | none => .error .unknownInstruction
      | some f =>
        if s.pc.toNat + formLength f ≤ 256 then
          .ok (buildInstr f (readByte s.mem (s.pc.toNat + 1)) (readByte s.mem (s.pc.toNat + 2)))
        else .error .addressOutOfRange := by
  have hpc : s.pc.toNat < 256 := s.pc.isLt
  unfold fetch
  rw [memRead_of_lt hpc, bind_ok]
  cases hf : opForm (readByte s.mem s.pc.toNat) with
  | none => simp [opLength, hf]
  | some f =>
    obtain ⟨h1, h3⟩ := formLength_bounds f
    simp only [opLength, hf, Option.map_some]
    split
    · next hle =>
      rw [fetchBytes_of_le _ _ _ (by omega), bind_ok]
      cases f <;> simp [decode, hf, formLength, buildInstr, List.range_succ, Config.notWidth]
    · next hgt => rw [fetchBytes_of_gt _ _ _ (by omega) (by omega)]; rfl

/-- The opcode map read backwards: which opcode gives a row. -/
theorem opForm_cases {op : Byte} {f : OpForm} (h : opForm op = some f) :
    (op = 0x82 ∧ f = .ri .ldi) ∨
    (op = 0x47 ∧ f = .r .prn) ∨
    (op = 0x01 ∧ f = .z .hlt) ∨
    (op = 0xA2 ∧ f = .rr .mul) ∨
    (op = 0xA0 ∧ f = .rr .add) ∨
    (op = 0x45 ∧ f = .r .push) ∨
    (op = 0x46 ∧ f = .r .pop) ∨
    (op = 0x50 ∧ f = .r .call) ∨
    (op = 0x11 ∧ f = .z .ret) ∨
    (op = 0xA7 ∧ f = .rr .cmp) ∨
    (op = 0x54 ∧ f = .r .jmp) ∨
    (op = 0x55 ∧ f = .r .jeq) ∨
    (op = 0x56 ∧ f = .r .jne) ∨
    (op = 0xA8 ∧ f = .rr .and) ∨
    (op = 0xAA ∧ f = .rr .or) ∨
    (op = 0xAB ∧ f = .rr .xor) ∨
    (op = 0x69 ∧ f = .rx .not) ∨
    (op = 0xAC ∧ f = .rr .shl) ∨
    (op = 0xAD ∧ f = .rr .shr) ∨
    (op = 0xA4 ∧ f = .rr .mod) := by
  have key : ∀ n : Nat, op.toNat = n → n < 256 → op = BitVec.ofNat 8 n := by
    intro n hn hlt
    exact BitVec.eq_of_toNat_eq (by simp [hn, Nat.mod_eq_of_lt hlt])
  unfold opForm at h
  split at h <;> cases h
  all_goals rename_i hn; have hop := key _ hn (by decide); simp [hop]

/-- The opcode map is defined exactly on the twenty opcodes. -/
theorem opForm_eq_none (op : Byte) : opForm op = none ↔ op ∉ allOpcodes := by
  revert op
  decide

/-! The step. -/

theorem step_of_halted {s : State} (h : s.run = .halted) : step s = .next s := by simp [step, cycle, h]

/-- A step in Running, by the fetch. -/
theorem step_of_running {s : State} (h : s.run = .running) :
    step s =
      match fetch (countCycle s) with
      | .ok i => conclude (countCycle s) (ruleOf i (countCycle s))
      | .error e => .next (haltWith e (countCycle s)) := by
  simp only [step, cycle, h, iteration]
  cases fetch (countCycle s) with
  | ok i => exact exec_eq_conclude i _
  | error e => rfl

/-- Everything a step in Running can do: halt on an illegal opcode; halt on an operand byte past the top of memory; or
perform the rule of the instruction its bytes make. -/
theorem step_cases {s t : State} (hr : s.run = .running) (h : step s = .next t) :
    (opForm (readByte s.mem s.pc.toNat) = none ∧ t = haltWith .unknownInstruction (countCycle s)) ∨
    ∃ f, opForm (readByte s.mem s.pc.toNat) = some f ∧
      ((256 < s.pc.toNat + formLength f ∧ t = haltWith .addressOutOfRange (countCycle s)) ∨
        (s.pc.toNat + formLength f ≤ 256 ∧
          exec (buildInstr f (readByte s.mem (s.pc.toNat + 1)) (readByte s.mem (s.pc.toNat + 2))) (countCycle s) =
            .next t)) := by
  rw [step_of_running hr, fetch_eq] at h
  simp only [countCycle, withCycles_mem, withCycles_pc] at h ⊢
  cases hf : opForm (readByte s.mem s.pc.toNat) with
  | none => rw [hf] at h; cases h; exact .inl ⟨rfl, rfl⟩
  | some f =>
    refine .inr ⟨f, rfl, ?_⟩
    rw [hf] at h
    by_cases hl : s.pc.toNat + formLength f ≤ 256
    · simp only [hl, if_true, ← exec_eq_conclude] at h
      exact .inr ⟨hl, h⟩
    · simp only [hl, if_false] at h
      cases h
      exact .inl ⟨by omega, rfl⟩

end Sys2Proof.Machine
end

