-- ==== Sys2Proof/Laws/PerInstr.lean ====
section
/-! SUPPORT. The per-instruction family EncodingShape: an instruction's encoding begins with an opcode of the map, and
the map's length of that opcode (R74) is the number of bytes the encoding has. -/

namespace Sys2Proof.Laws.EncodingShape

/-- The opcode is in the map and its length there is the encoding's. -/
def Statement (i : Instr) : Prop := opLength (opcodeOf i) = some (encode i).length

theorem ldi (ra : Nat) (imm : Byte) : Statement (.ldi ra imm) := rfl
theorem prn (ra : Nat) : Statement (.prn ra) := rfl
theorem hlt : Statement .hlt := rfl
theorem mul (ra rb : Nat) : Statement (.mul ra rb) := rfl
theorem add (ra rb : Nat) : Statement (.add ra rb) := rfl
theorem push (ra : Nat) : Statement (.push ra) := rfl
theorem pop (ra : Nat) : Statement (.pop ra) := rfl
theorem call (ra : Nat) : Statement (.call ra) := rfl
theorem ret : Statement .ret := rfl
theorem cmp (ra rb : Nat) : Statement (.cmp ra rb) := rfl
theorem jmp (ra : Nat) : Statement (.jmp ra) := rfl
theorem jeq (ra : Nat) : Statement (.jeq ra) := rfl
theorem jne (ra : Nat) : Statement (.jne ra) := rfl
theorem and (ra rb : Nat) : Statement (.and ra rb) := rfl
theorem or (ra rb : Nat) : Statement (.or ra rb) := rfl
theorem xor (ra rb : Nat) : Statement (.xor ra rb) := rfl
theorem not (ra : Nat) (pad : Byte) : Statement (.not ra pad) := rfl
theorem shl (ra rb : Nat) : Statement (.shl ra rb) := rfl
theorem shr (ra rb : Nat) : Statement (.shr ra rb) := rfl
theorem mod (ra rb : Nat) : Statement (.mod ra rb) := rfl

end Sys2Proof.Laws.EncodingShape
end

