-- ==== Sys2Proof/Machine/Assembly.lean ====
section
/-! DEFINITION. The assembly spelling of an instruction (R82): the mnemonic, then its operands in encoding order. NOT is
written with one operand. No behaviour of the machine depends on it. -/

namespace Sys2Proof.Machine

/-- A register operand. -/
def asmReg (r : Nat) : String := "R" ++ toString r

/-- A mnemonic with one register. -/
def asmR (m : String) (ra : Nat) : String := m ++ " " ++ asmReg ra

/-- A mnemonic with two registers. -/
def asmRR (m : String) (ra rb : Nat) : String := asmR m ra ++ ", " ++ asmReg rb

/-- The assembly text of an instruction. -/
def assemblyOf : Instr → String
  | .ldi ra imm => asmR "LDI" ra ++ ", " ++ toString imm.toNat
  | .prn ra => asmR "PRN" ra
  | .hlt => "HLT"
  | .mul ra rb => asmRR "MUL" ra rb
  | .add ra rb => asmRR "ADD" ra rb
  | .push ra => asmR "PUSH" ra
  | .pop ra => asmR "POP" ra
  | .call ra => asmR "CALL" ra
  | .ret => "RET"
  | .cmp ra rb => asmRR "CMP" ra rb
  | .jmp ra => asmR "JMP" ra
  | .jeq ra => asmR "JEQ" ra
  | .jne ra => asmR "JNE" ra
  | .and ra rb => asmRR "AND" ra rb
  | .or ra rb => asmRR "OR" ra rb
  | .xor ra rb => asmRR "XOR" ra rb
  | .not ra _ => asmR "NOT" ra
  | .shl ra rb => asmRR "SHL" ra rb
  | .shr ra rb => asmRR "SHR" ra rb
  | .mod ra rb => asmRR "MOD" ra rb

end Sys2Proof.Machine
end

