-- ==== Sys2Proof/Tests/Slice0.lean ====
section
/-! SUPPORT. The model's own tests: the well-formedness smoke tests, one word per constructor decoded from the bits the
spec writes out, and the spec's worked vectors (95_test_vectors.md, and the examples of the instruction rules). -/

namespace Sys2Proof.Tests

open Sys2Proof Sys2Proof.Machine

/-! ## Helpers -/

/-- The reset state with some bytes laid at an address and the pc there. -/
def holding (a : Byte) (bytes : List Byte) : State :=
  { State.reset with pc := a, mem := placeBytes [] a.toNat bytes }

/-- The same with register values. -/
def holdingRegs (a : Byte) (bytes : List Byte) (x : Vector Byte 8) : State := { holding a bytes with regs := x }

/-- What a test looks at after one step. -/
def after {α : Type} (s : State) (look : State → α) : Option α :=
  match step s with
  | .next t => some (look t)
  | .fault _ => none
  | .refused _ => none

/-- The registers after one step. -/
def regsAfter (s : State) : Option (List Byte) := after s fun t => t.regs.toList

/-- Run state, cause and pc after one step. -/
def haltAfter (s : State) : Option (RunState × Option ErrorKind × Byte) := after s fun t => (t.run, t.cause, t.pc)

/-- The flags after one step, as E, G, L. -/
def flagsAfter (s : State) : Option (Bool × Bool × Bool) :=
  after s fun t => (t.flags.equal, t.flags.greater, t.flags.less)

/-- What a test looks at after the host's load on the reset state. -/
def loaded {α : Type} (image : List Nat) (look : State → α) : Option α :=
  match loadImage image State.reset with
  | .ok s => some (look s)
  | .error _ => none

/-- How a bounded run of a loaded image ends, with the pc, the output and the count. -/
def endOfRun (n : Nat) (image : List Nat) : Option (Option RunEnd × Byte × List Byte × Nat) :=
  match loadImage image State.reset with
  | .error _ => none
  | .ok s =>
    match runBounded n s with
    | .next (t, e) => some (e, t.pc, t.out, t.cycles)
    | .fault _ => none
    | .refused _ => none

/-! ## Well-formedness: every check refuses a term whose operand does not fit its byte -/

theorem test_illFormed_oneRegister :
    (Instr.ldi 256 0).wf = false ∧ (Instr.prn 256).wf = false ∧ (Instr.push 256).wf = false ∧
    (Instr.pop 256).wf = false ∧ (Instr.call 256).wf = false ∧ (Instr.jmp 256).wf = false ∧
    (Instr.jeq 256).wf = false ∧ (Instr.jne 256).wf = false ∧ (Instr.not 256 0).wf = false := by decide

theorem test_illFormed_firstRegister :
    (Instr.mul 256 0).wf = false ∧ (Instr.add 256 0).wf = false ∧ (Instr.cmp 256 0).wf = false ∧
    (Instr.and 256 0).wf = false ∧ (Instr.or 256 0).wf = false ∧ (Instr.xor 256 0).wf = false ∧
    (Instr.shl 256 0).wf = false ∧ (Instr.shr 256 0).wf = false ∧ (Instr.mod 256 0).wf = false := by decide

theorem test_illFormed_secondRegister :
    (Instr.mul 0 256).wf = false ∧ (Instr.add 0 256).wf = false ∧ (Instr.cmp 0 256).wf = false ∧
    (Instr.and 0 256).wf = false ∧ (Instr.or 0 256).wf = false ∧ (Instr.xor 0 256).wf = false ∧
    (Instr.shl 0 256).wf = false ∧ (Instr.shr 0 256).wf = false ∧ (Instr.mod 0 256).wf = false := by decide

/-- A register number the file does not have is still encodable (R72). -/
theorem test_wellFormed_unusualRegister : (Instr.add 255 8).wf = true ∧ (Instr.not 9 0xFF).wf = true := by decide

/-! ## Decoding: the opcode bits of R75 written out, each with operands of its own -/

theorem test_decode_load_and_stack :
    decode [0b10000010#8, 3, 0xFF] = .ok (.ldi 3 0xFF, []) ∧ decode [0b01000101#8, 4] = .ok (.push 4, []) ∧
    decode [0b01000110#8, 5, 9] = .ok (.pop 5, [9]) := by decide

theorem test_decode_arithmetic :
    decode [0b10100010#8, 1, 2] = .ok (.mul 1 2, []) ∧ decode [0b10100000#8, 3, 4] = .ok (.add 3 4, []) ∧
    decode [0b10100111#8, 5, 6] = .ok (.cmp 5 6, []) ∧ decode [0b10100100#8, 7, 9] = .ok (.mod 7 9, []) := by decide

theorem test_decode_bitwise :
    decode [0b10101000#8, 1, 2] = .ok (.and 1 2, []) ∧ decode [0b10101010#8, 3, 4] = .ok (.or 3 4, []) ∧
    decode [0b10101011#8, 5, 6] = .ok (.xor 5 6, []) ∧ decode [0b01101001#8, 2, 0xFF] = .ok (.not 2 0xFF, []) ∧
    decode [0b10101100#8, 0, 1] = .ok (.shl 0 1, []) ∧ decode [0b10101101#8, 6, 7] = .ok (.shr 6 7, []) := by decide

theorem test_decode_control_and_output :
    decode [0b00000001#8, 7] = .ok (.hlt, [7]) ∧ decode [0b01010000#8, 1] = .ok (.call 1, []) ∧
    decode [0b00010001#8] = .ok (.ret, []) ∧ decode [0b01010100#8, 2] = .ok (.jmp 2, []) ∧
    decode [0b01010101#8, 3] = .ok (.jeq 3, []) ∧ decode [0b01010110#8, 255] = .ok (.jne 255, []) ∧
    decode [0b01000111#8, 0] = .ok (.prn 0, []) := by decide

/-- Rejections by name: no bytes, an illegal opcode (0x00 and 0xA3, R77 and W6), operand bytes that are not there. -/
theorem test_decode_rejects :
    decode [] = .error .noOpcode ∧ decode [0x00#8, 1, 2] = .error (.unknownInstruction 0x00) ∧
    decode [0xA3#8, 0, 1] = .error (.unknownInstruction 0xA3) ∧
    decode [0b01101001#8, 2] = .error (.missingOperand 0x69) := by decide

/-- The table's numbering: bit 0 is the least significant bit of the first byte, and missing operand bits are 0. -/
theorem test_decodeTableWord :
    decodeTableWord 24 0x090382 = some (.ldi 3 9) ∧ decodeTableWord 8 0xFFFF69 = some (.not 0 0) ∧
    decodeTableWord 8 0x00 = none := by decide

/-- The source's own bytes of the scenario program (W8), and an assembled NOT with its zero pad (R82). -/
theorem test_encode :
    encode (.ldi 0 8) ++ encode (.prn 0) ++ encode .hlt = [0b10000010, 0, 8, 0b01000111, 0, 0b00000001] ∧
    encode (.not 2 0) = [0x69, 2, 0] := by decide

/-! ## One step: the spec's vectors -/

/-- R101: "at pc = 0, bytes 82 00 08 give x[0] = 8, pc = 3"; V2: LDI R7. -/
theorem test_ldi : after (holding 0 [0x82, 0, 8]) (fun t => (t.regs[0], t.pc)) = some (8, 3) ∧
    after (holding 0 [0x82, 7, 0x10]) (fun t => (t.regs[7], t.pc)) = some (16, 3) := by decide

/-- V3, V4, V5: a bad index, the fetch past the top, and the pc's wrap. -/
theorem test_ldi_edges : haltAfter (holding 0 [0x82, 8, 1]) = some (.halted, some .registerOutOfRange, 0) ∧
    haltAfter (holding 254 [0x82, 0, 1]) = some (.halted, some .addressOutOfRange, 254) ∧
    after (holding 253 [0x82, 0, 1]) (fun t => (t.regs[0], t.pc)) = some (1, 0) := by decide

/-- V6, V7: PUSH, and its wrap at SP = 0. -/
theorem test_push :
    after (holdingRegs 0 [0x45, 0] #v[0x2A, 0, 0, 0, 0, 0, 0, 244]) (fun t => (t.regs[7], readByte t.mem 243, t.pc)) =
      some (243, 0x2A, 2) ∧
    after (holdingRegs 0 [0x45, 0] #v[0x77, 0, 0, 0, 0, 0, 0, 0]) (fun t => (t.regs[7], readByte t.mem 255)) =
      some (255, 0x77) := by decide

/-- V8, V9: PUSH R7 pushes the decremented SP; a bad index leaves SP and memory. -/
theorem test_push_edges :
    after (holding 0 [0x45, 7]) (fun t => (t.regs[7], readByte t.mem 243)) = some (243, 243) ∧
    after (holding 0 [0x45, 8]) (fun t => (t.cause, t.regs[7], readByte t.mem 243, t.pc)) =
      some (some .registerOutOfRange, 244, 0, 0) := by decide

/-- V12, V13: POP with no push, and its wrap at SP = 255. -/
theorem test_pop : after (holding 0 [0x46, 2]) (fun t => (t.regs[2], t.regs[7], t.pc)) = some (0, 245, 2) ∧
    after { holdingRegs 0 [0x46, 0] #v[0, 0, 0, 0, 0, 0, 0, 255] with mem := [(0, 0x46), (255, 9)] }
      (fun t => (t.regs[0], t.regs[7])) = some (9, 0) := by decide

/-- V14: POP R7; V11: the popped cell is not cleared. -/
theorem test_pop_edges :
    after { holdingRegs 0 [] #v[0, 0, 0, 0, 0, 0, 0, 243] with mem := [(0, 0x46), (1, 7), (243, 0x10)] }
      (fun t => t.regs[7]) = some 0x11 ∧
    after { holdingRegs 0 [] #v[0, 0, 0, 0, 0, 0, 0, 243] with mem := [(0, 0x46), (1, 1), (243, 0x2A)] }
      (fun t => (t.regs[1], t.regs[7], readByte t.mem 243)) = some (0x2A, 244, 0x2A) := by decide

/-- V16, V19: ADD wraps; R7 is a register like any other. -/
theorem test_add :
    after (holdingRegs 0 [0xA0, 0, 1] #v[200, 100, 0, 0, 0, 0, 0, 244]) (fun t => (t.regs[0], t.regs[1], t.pc)) =
      some (44, 100, 3) ∧
    after (holdingRegs 0 [0xA0, 7, 0] #v[16, 0, 0, 0, 0, 0, 0, 244]) (fun t => t.regs[7]) = some 4 := by decide

/-- V22, V24: MUL wraps; one register squared. -/
theorem test_mul :
    after (holdingRegs 0 [0xA2, 0, 1] #v[16, 16, 0, 0, 0, 0, 0, 244]) (fun t => t.regs[0]) = some 0 ∧
    after (holdingRegs 0 [0xA2, 1, 1] #v[0, 20, 0, 0, 0, 0, 0, 244]) (fun t => t.regs[1]) = some 144 := by decide

/-- V26, V29, V30: CMP is unsigned. -/
theorem test_cmp :
    flagsAfter (holdingRegs 0 [0xA7, 0, 1] #v[5, 5, 0, 0, 0, 0, 0, 244]) = some (true, false, false) ∧
    flagsAfter (holdingRegs 0 [0xA7, 0, 1] #v[0, 255, 0, 0, 0, 0, 0, 244]) = some (false, false, true) ∧
    flagsAfter (holdingRegs 0 [0xA7, 0, 1] #v[255, 0, 0, 0, 0, 0, 0, 244]) = some (false, true, false) := by decide

/-- V31, V32: all three flags are overwritten; on an error they are kept. -/
theorem test_cmp_edges :
    flagsAfter { holding 0 [0xA7, 2, 2] with flags := ⟨false, false, true⟩ } = some (true, false, false) ∧
    flagsAfter { holding 0 [0xA7, 9, 0] with flags := ⟨false, true, false⟩ } = some (false, true, false) := by decide

/-- V34, V35, V36: AND, OR, XOR. -/
theorem test_bitwise :
    after (holdingRegs 0 [0xA8, 0, 1] #v[0xF0, 0x3C, 0, 0, 0, 0, 0, 244]) (fun t => t.regs[0]) = some 0x30 ∧
    after (holdingRegs 0 [0xAA, 0, 1] #v[0xF0, 0x0F, 0, 0, 0, 0, 0, 244]) (fun t => t.regs[0]) = some 0xFF ∧
    after (holdingRegs 0 [0xAB, 0, 1] #v[0xFF, 0x0F, 0, 0, 0, 0, 0, 244]) (fun t => t.regs[0]) = some 0xF0 := by decide

/-- V39, V42, V43: the pad is not checked but is fetched; NOT is single-level. -/
theorem test_not :
    after (holdingRegs 0 [0x69, 2, 0xFF] #v[0, 0, 0x0A, 0, 0, 0, 0, 244]) (fun t => (t.regs[2], t.pc)) = some (0xF5, 3) ∧
    haltAfter (holding 254 [0x69, 0]) = some (.halted, some .addressOutOfRange, 254) ∧
    after (holdingRegs 0 [0x69, 1, 0] #v[0, 3, 0, 0x77, 0, 0, 0, 244]) (fun t => (t.regs[1], t.regs[3])) =
      some (0xFC, 0x77) := by decide

/-- V45, V48, V50: SHL loses bit 7, does not reduce the count, and reads its own old value as the count. -/
theorem test_shl :
    after (holdingRegs 0 [0xAC, 0, 1] #v[0x81, 1, 0, 0, 0, 0, 0, 244]) (fun t => t.regs[0]) = some 2 ∧
    after (holdingRegs 0 [0xAC, 0, 1] #v[1, 255, 0, 0, 0, 0, 0, 244]) (fun t => t.regs[0]) = some 0 ∧
    after (holdingRegs 0 [0xAC, 0, 0] #v[3, 0, 0, 0, 0, 0, 0, 244]) (fun t => t.regs[0]) = some 24 := by decide

/-- V51, V52, V53: SHR is logical. -/
theorem test_shr :
    after (holdingRegs 0 [0xAD, 0, 1] #v[0x80, 7, 0, 0, 0, 0, 0, 244]) (fun t => t.regs[0]) = some 1 ∧
    after (holdingRegs 0 [0xAD, 0, 1] #v[0x80, 8, 0, 0, 0, 0, 0, 244]) (fun t => t.regs[0]) = some 0 ∧
    after (holdingRegs 0 [0xAD, 0, 1] #v[0xFF, 4, 0, 0, 0, 0, 0, 244]) (fun t => t.regs[0]) = some 0x0F := by decide

/-- V54, V55: MOD. -/
theorem test_mod :
    after (holdingRegs 0 [0xA4, 0, 1] #v[17, 5, 0, 0, 0, 0, 0, 244]) (fun t => t.regs[0]) = some 2 ∧
    after (holdingRegs 0 [0xA4, 0, 1] #v[5, 17, 0, 0, 0, 0, 0, 244]) (fun t => t.regs[0]) = some 5 := by decide

/-- V59, V61, V92: a zero divisor; the register check before it; the fetch before both. -/
theorem test_mod_edges :
    after (holdingRegs 10 [0xA4, 0, 1] #v[9, 0, 0, 0, 0, 0, 0, 244]) (fun t => (t.cause, t.pc, t.regs[0])) =
      some (some .arithmeticError, 10, 9) ∧
    haltAfter (holding 0 [0xA4, 9, 1]) = some (.halted, some .registerOutOfRange, 0) ∧
    haltAfter (holding 255 [0xA4]) = some (.halted, some .addressOutOfRange, 255) := by decide

/-- V62: HLT keeps its pc. -/
theorem test_hlt : haltAfter (holding 5 [0x01]) = some (.halted, none, 5) := by decide

/-- V63, V64: CALL, and its return address reduced modulo 256. -/
theorem test_call :
    after (holdingRegs 3 [0x50, 1] #v[0, 8, 0, 0, 0, 0, 0, 244]) (fun t => (t.pc, t.regs[7], readByte t.mem 243)) =
      some (8, 243, 5) ∧
    after { holdingRegs 254 [0x50, 1] #v[0, 8, 0, 0, 0, 0, 0, 244] with mem := [(243, 7), (254, 0x50), (255, 1)] }
      (fun t => (t.pc, readByte t.mem 243)) = some (8, 0) := by decide

/-- V65, V66: CALL R7 jumps to the decremented SP; a bad index pushes nothing. -/
theorem test_call_edges :
    after (holding 10 [0x50, 7]) (fun t => (t.pc, t.regs[7], readByte t.mem 243)) = some (243, 243, 12) ∧
    after (holding 10 [0x50, 8]) (fun t => (t.cause, t.pc, t.regs[7], readByte t.mem 243)) =
      some (some .registerOutOfRange, 10, 244, 0) := by decide

/-- V69, V70: RET with no CALL, and its wrap. -/
theorem test_ret : after (holding 20 [0x11]) (fun t => (t.pc, t.regs[7])) = some (0, 245) ∧
    after { holdingRegs 20 [] #v[0, 0, 0, 0, 0, 0, 0, 255] with mem := [(20, 0x11), (255, 0x40)] }
      (fun t => (t.pc, t.regs[7])) = some (0x40, 0) := by decide

/-- V71, V72, V73: JMP. -/
theorem test_jmp : haltAfter (holdingRegs 20 [0x54, 2] #v[0, 0, 5, 0, 0, 0, 0, 244]) = some (.running, none, 5) ∧
    haltAfter (holding 20 [0x54, 7]) = some (.running, none, 244) ∧
    haltAfter (holding 20 [0x54, 8]) = some (.halted, some .registerOutOfRange, 20) := by decide

/-- V75, V77, V78, V79: JEQ not taken, its index unchecked when not taken, checked when taken, and the wrap. -/
theorem test_jeq :
    haltAfter { holdingRegs 20 [0x55, 3] #v[0, 0, 0, 9, 0, 0, 0, 244] with flags := ⟨false, true, false⟩ } =
      some (.running, none, 22) ∧
    haltAfter { holding 20 [0x55, 9] with flags := ⟨false, false, true⟩ } = some (.running, none, 22) ∧
    haltAfter { holding 20 [0x55, 9] with flags := ⟨true, false, false⟩ } =
      some (.halted, some .registerOutOfRange, 20) ∧
    haltAfter (holding 254 [0x55, 3]) = some (.running, none, 0) := by decide

/-- V82, V83: JNE not taken, and taken before any CMP. -/
theorem test_jne :
    haltAfter { holdingRegs 20 [0x56, 3] #v[0, 0, 0, 12, 0, 0, 0, 244] with flags := ⟨true, false, false⟩ } =
      some (.running, none, 22) ∧
    haltAfter (holdingRegs 20 [0x56, 3] #v[0, 0, 0, 12, 0, 0, 0, 244]) = some (.running, none, 12) := by decide

/-- V85, V86, V88: PRN. -/
theorem test_prn : after (holding 0 [0x47, 7]) (fun t => t.out) = some [244] ∧
    after (holding 0 [0x47, 8]) (fun t => (t.cause, t.out)) = some (some .registerOutOfRange, []) ∧
    after (holding 254 [0x47, 0]) (fun t => (t.out, t.pc)) = some ([0], 0) := by decide

/-- V89, V91: illegal opcodes, before any operand fetch; an error counts its iteration. -/
theorem test_unknown : after (holding 0 []) (fun t => (t.cause, t.pc, t.cycles)) = some (some .unknownInstruction, 0, 1) ∧
    haltAfter (holding 255 [0xFF]) = some (.halted, some .unknownInstruction, 255) := by decide

/-! ## The host's operations -/

/-- V94, V95: the scenario program under a bound of 3 and of 2. -/
theorem test_run_bound :
    endOfRun 2 [0x82, 0, 8, 0x47, 0, 1] = some (some .cycleLimitReached, 5, [8], 2) ∧
    endOfRun 3 [0x82, 0, 8, 0x47, 0, 1] = some (some (.halted none), 5, [8], 3) := by decide

/-- R202: a value above 255 is reduced; R30: the flags byte. -/
theorem test_host_views : loaded [0x182] (fun s => readByte s.mem 0) = some 0x82 ∧
    flagsByte ⟨true, false, false⟩ = 1 ∧ flagsByte ⟨false, true, false⟩ = 2 ∧ flagsByte ⟨false, false, true⟩ = 4 := by
  decide

/-- R32: the codes of the six causes. -/
theorem test_causeCode : [none, some .unknownInstruction, some .arithmeticError, some .addressOutOfRange,
    some .registerOutOfRange, some .unsupportedOperation].map causeCode = [0, 1, 2, 3, 4, 5] := by decide

/-- R161 and R82: texts. -/
theorem test_texts : renderOutput [8, 255] = "8\n255\n" ∧ assemblyOf (.ldi 0 8) = "LDI R0, 8" ∧
    assemblyOf (.not 2 0) = "NOT R2" := by decide

/-- The host's placing of one instruction: the very next step runs it, from Halted too. -/
theorem test_withFetchWord :
    after (State.reset.withFetchWord 24 0x080082) (fun t => (t.regs[0], t.pc)) = some (8, 3) ∧
    after ((haltClean State.reset).withFetchWord 16 0x0747) (fun t => t.out) = some [244] := by decide

end Sys2Proof.Tests
end

