-- ==== Sys2Proof/Tests/Witnesses.lean ====
section
/-! SUPPORT. For every statement that has hypotheses, a concrete state and operands that meet them together: each clause
of it, at the values where clauses meet. -/

namespace Sys2Proof.Tests

open Sys2Proof Sys2Proof.Machine

/-- The hypotheses of the fetch clause of `FetchedAs` in which every operand byte lies in memory. -/
abbrev Fits (s : State) (op : Byte) (len : Nat) : Prop :=
  s.run = .running ∧ opcodeAt s = op ∧ s.pc.toNat + len ≤ 256

/-- The hypotheses of the clause in which an operand byte lies above address 255. -/
abbrev PastTop (s : State) (op : Byte) (len : Nat) : Prop :=
  s.run = .running ∧ opcodeAt s = op ∧ 256 < s.pc.toNat + len

/-- A step from a state answers a next state with a property. -/
def Steps (s : State) (p : State → Prop) : Prop := ∃ t, step s = .next t ∧ p t

/-- An instruction at reset answers a next state. -/
def Completes (i : Instr) : Prop := ∃ t, exec i State.reset = .next t

/-! ## Per instruction: the fetch inside memory and past its top, and each clause of the execution -/

theorem witness_LdiLoadsItsImmediate : Fits (holding 253 [0x82, 7, 0]) 0x82 3 ∧ PastTop (holding 254 [0x82, 7]) 0x82 3 ∧
    7 < 8 ∧ 8 ≤ 8 := by decide

theorem witness_PrnPrintsItsRegister : Fits (holding 254 [0x47, 7]) 0x47 2 ∧ PastTop (holding 255 [0x47]) 0x47 2 ∧
    7 < 8 ∧ 8 ≤ 8 := by decide

theorem witness_HltHaltsClean : (holding 255 [0x01]).run = .running ∧ opcodeAt (holding 255 [0x01]) = 0x01 := by decide

theorem witness_MulWrapsModulo256 : Fits (holding 253 [0xA2, 7, 0]) 0xA2 3 ∧ PastTop (holding 254 [0xA2, 7]) 0xA2 3 ∧
    (7 < 8 ∧ 0 < 8) ∧ (8 ≤ 8 ∨ 8 ≤ 0) := by decide

theorem witness_AddWrapsModulo256 : Fits (holding 253 [0xA0, 7, 0]) 0xA0 3 ∧ PastTop (holding 254 [0xA0, 7]) 0xA0 3 ∧
    (7 < 8 ∧ 0 < 8) ∧ (8 ≤ 8 ∨ 8 ≤ 0) := by decide

theorem witness_PushStoresBelowSp : Fits (holding 254 [0x45, 7]) 0x45 2 ∧ PastTop (holding 255 [0x45]) 0x45 2 ∧
    7 < 8 ∧ 8 ≤ 8 := by decide

theorem witness_PopLoadsFromSp : Fits (holding 254 [0x46, 7]) 0x46 2 ∧ PastTop (holding 255 [0x46]) 0x46 2 ∧
    7 < 8 ∧ 8 ≤ 8 := by decide

theorem witness_CallPushesReturnAddress : Fits (holding 254 [0x50, 7]) 0x50 2 ∧ PastTop (holding 255 [0x50]) 0x50 2 ∧
    7 < 8 ∧ 8 ≤ 8 := by decide

theorem witness_RetPopsThePc : (holding 255 [0x11]).run = .running ∧ opcodeAt (holding 255 [0x11]) = 0x11 := by decide

theorem witness_CmpSetsFlagsUnsigned : Fits (holding 253 [0xA7, 7, 0]) 0xA7 3 ∧ PastTop (holding 254 [0xA7, 7]) 0xA7 3 ∧
    (7 < 8 ∧ 0 < 8) ∧ (8 ≤ 8 ∨ 8 ≤ 0) := by decide

theorem witness_JmpSetsThePc : Fits (holding 254 [0x54, 7]) 0x54 2 ∧ PastTop (holding 255 [0x54]) 0x54 2 ∧
    7 < 8 ∧ 8 ≤ 8 := by decide

theorem witness_JeqJumpsWhenEqual : Fits (holding 254 [0x55, 7]) 0x55 2 ∧ PastTop (holding 255 [0x55]) 0x55 2 ∧
    7 < 8 ∧ 8 ≤ 8 ∧ (compareFlags 0 0).equal = true ∧ State.reset.flags.equal = false := by decide

theorem witness_JneJumpsWhenNotEqual : Fits (holding 254 [0x56, 7]) 0x56 2 ∧ PastTop (holding 255 [0x56]) 0x56 2 ∧
    7 < 8 ∧ 8 ≤ 8 ∧ (compareFlags 0 0).equal = true ∧ State.reset.flags.equal = false := by decide

theorem witness_AndIsBitwise : Fits (holding 253 [0xA8, 7, 0]) 0xA8 3 ∧ PastTop (holding 254 [0xA8, 7]) 0xA8 3 ∧
    (7 < 8 ∧ 0 < 8) ∧ (8 ≤ 8 ∨ 8 ≤ 0) := by decide

theorem witness_OrIsBitwise : Fits (holding 253 [0xAA, 7, 0]) 0xAA 3 ∧ PastTop (holding 254 [0xAA, 7]) 0xAA 3 ∧
    (7 < 8 ∧ 0 < 8) ∧ (8 ≤ 8 ∨ 8 ≤ 0) := by decide

theorem witness_XorIsBitwise : Fits (holding 253 [0xAB, 7, 0]) 0xAB 3 ∧ PastTop (holding 254 [0xAB, 7]) 0xAB 3 ∧
    (7 < 8 ∧ 0 < 8) ∧ (8 ≤ 8 ∨ 8 ≤ 0) := by decide

theorem witness_NotComplementsInPlace : Fits (holding 253 [0x69, 7, 0]) 0x69 3 ∧ PastTop (holding 254 [0x69, 7]) 0x69 3 ∧
    7 < 8 ∧ 8 ≤ 8 := by decide

theorem witness_ShlShiftsByWholeCount : Fits (holding 253 [0xAC, 7, 0]) 0xAC 3 ∧ PastTop (holding 254 [0xAC, 7]) 0xAC 3 ∧
    (7 < 8 ∧ 0 < 8) ∧ (8 ≤ 8 ∨ 8 ≤ 0) ∧ 8 ≤ (#v[1, 8, 0, 0, 0, 0, 0, 244] : Vector Byte 8)[1].toNat := by decide

theorem witness_ShrShiftsByWholeCount : Fits (holding 253 [0xAD, 7, 0]) 0xAD 3 ∧ PastTop (holding 254 [0xAD, 7]) 0xAD 3 ∧
    (7 < 8 ∧ 0 < 8) ∧ (8 ≤ 8 ∨ 8 ≤ 0) ∧ 8 ≤ (#v[1, 8, 0, 0, 0, 0, 0, 244] : Vector Byte 8)[1].toNat := by decide

theorem witness_ModRemainderOrHalt : Fits (holding 253 [0xA4, 7, 0]) 0xA4 3 ∧ PastTop (holding 254 [0xA4, 7]) 0xA4 3 ∧
    (7 < 8 ∧ 0 < 8) ∧ (8 ≤ 8 ∨ 8 ≤ 0) ∧ State.reset.regs[7].toNat ≠ 0 ∧ State.reset.regs[0].toNat = 0 := by decide

/-! ## Frames: every listed instruction answers a next state, on a register of the file and on one that it lacks -/

theorem witness_RegisterWritersFrame :
    Completes (.ldi 7 1) ∧ Completes (.ldi 8 1) ∧ Completes (.mul 7 7) ∧ Completes (.mul 8 7) ∧
    Completes (.add 7 7) ∧ Completes (.add 8 7) ∧ Completes (.and 7 7) ∧ Completes (.and 8 7) ∧ Completes (.or 7 7) ∧
    Completes (.or 8 7) ∧ Completes (.xor 7 7) ∧ Completes (.xor 8 7) ∧ Completes (.not 7 255) ∧
    Completes (.not 8 255) ∧ Completes (.shl 7 7) ∧ Completes (.shl 8 7) ∧ Completes (.shr 7 7) ∧
    Completes (.shr 8 7) ∧ Completes (.mod 7 7) ∧ Completes (.mod 8 7) :=
  ⟨⟨_, rfl⟩, ⟨_, rfl⟩, ⟨_, rfl⟩, ⟨_, rfl⟩, ⟨_, rfl⟩, ⟨_, rfl⟩, ⟨_, rfl⟩, ⟨_, rfl⟩, ⟨_, rfl⟩, ⟨_, rfl⟩,
    ⟨_, rfl⟩, ⟨_, rfl⟩, ⟨_, rfl⟩, ⟨_, rfl⟩, ⟨_, rfl⟩, ⟨_, rfl⟩, ⟨_, rfl⟩, ⟨_, rfl⟩, ⟨_, rfl⟩, ⟨_, rfl⟩⟩

theorem witness_PushAndCallFrame :
    Completes (.push 7) ∧ Completes (.push 8) ∧ Completes (.call 7) ∧ Completes (.call 8) :=
  ⟨⟨_, rfl⟩, ⟨_, rfl⟩, ⟨_, rfl⟩, ⟨_, rfl⟩⟩

theorem witness_PopFrame :
    Completes (.pop 7) ∧ Completes (.pop 8) :=
  ⟨⟨_, rfl⟩, ⟨_, rfl⟩⟩

theorem witness_RetFrame :
    Completes (.ret) :=
  ⟨_, rfl⟩

theorem witness_JumpPrintHaltFrame :
    Completes (.jmp 7) ∧ Completes (.jmp 8) ∧ Completes (.jeq 7) ∧ Completes (.jeq 8) ∧ Completes (.jne 7) ∧
    Completes (.jne 8) ∧ Completes (.prn 7) ∧ Completes (.prn 8) ∧ Completes (.hlt) :=
  ⟨⟨_, rfl⟩, ⟨_, rfl⟩, ⟨_, rfl⟩, ⟨_, rfl⟩, ⟨_, rfl⟩, ⟨_, rfl⟩, ⟨_, rfl⟩, ⟨_, rfl⟩, ⟨_, rfl⟩,
    ⟩

theorem witness_CmpFrame : Completes (.cmp 7 0) ∧
    ∃ t, exec (.cmp 8 0) State.reset = .next t ∧ t.run ≠ State.reset.run := ⟨⟨_, rfl⟩, _, rfl, by decide⟩

/-! ## Errors -/

theorem witness_UnknownOpcodeHalts : State.reset.run = .running ∧ opcodeAt State.reset ∉ allOpcodes ∧
    opcodeAt (holding 255 [0x45]) ∈ allOpcodes ∧ Steps (holding 255 [0x45]) (fun _ => True) :=
  ⟨by decide, by decide, by decide, _, rfl, trivial⟩

theorem witness_ArithmeticErrorOnlyFromMod : (holding 253 [0xA4, 7, 0]).run = .running ∧
    Steps (holding 253 [0xA4, 7, 0]) (ErrorHalt .arithmeticError) := ⟨by decide, _, rfl, by decide⟩

theorem witness_AddressErrorOnlyFromFetch :
    Steps (holding 254 [0xA4, 7]) (ErrorHalt .addressOutOfRange) ∧ Steps (holding 255 [0x55]) (ErrorHalt .addressOutOfRange) ∧
    Steps (holding 253 [0x82, 7, 1]) (fun t => t.run = .running) ∧ Steps (holding 254 [0x55, 7]) (fun t => t.run = .running) :=
  ⟨⟨_, rfl, by decide⟩, ⟨_, rfl, by decide⟩, ⟨_, rfl, by decide⟩, ⟨_, rfl, by decide⟩⟩

theorem witness_RegisterErrorOnlyWhenUsed :
    Steps (holding 253 [0x69, 8, 0]) (ErrorHalt .registerOutOfRange) ∧
    Steps (holding 253 [0xA4, 0, 8]) (ErrorHalt .registerOutOfRange) ∧
    Steps (holding 254 [0x54, 8]) (ErrorHalt .registerOutOfRange) ∧
    Steps { holding 254 [0x55, 8] with flags := compareFlags 0 0 } (ErrorHalt .registerOutOfRange) ∧
    Steps (holding 254 [0x56, 8]) (ErrorHalt .registerOutOfRange) ∧
    Steps (holding 254 [0x55, 8]) (fun t => t.run = .running) :=
  ⟨⟨_, rfl, by decide⟩, ⟨_, rfl, by decide⟩, ⟨_, rfl, by decide⟩, ⟨_, rfl, by decide⟩, ⟨_, rfl, by decide⟩,
    ⟨_, rfl, by decide⟩⟩

theorem witness_UnsupportedOperationNeverRaised :
    State.reset.cause ≠ some .unsupportedOperation ∧ Steps State.reset (fun t => t.cause ≠ none) :=
  ⟨by decide, _, rfl, by decide⟩

theorem witness_ErrorHaltIsPrecise : State.reset.run = .running ∧ State.reset.cause = none ∧
    Steps (holding 255 [0x82]) (fun t => t.cause = some .addressOutOfRange) := ⟨by decide, by decide, _, rfl, by decide⟩

theorem witness_HaltsOnlyByHltOrError : Steps (holding 255 [0x01]) CleanHalt ∧
    Steps (holding 255 [0x45]) (ErrorHalt .addressOutOfRange) := ⟨⟨_, rfl, by decide⟩, _, rfl, by decide⟩

/-! ## The machine as a whole -/

theorem witness_OnlyCmpChangesFlags :
    Steps (holding 253 [0xA7, 7, 0]) (fun t => t.flags ≠ (holding 253 [0xA7, 7, 0]).flags) := ⟨_, rfl, by decide⟩

theorem witness_OnlyPrnAppendsOutput : Steps (holding 254 [0x47, 7]) (fun t => t.out ≠ State.reset.out) :=
  ⟨_, rfl, by decide⟩

theorem witness_OnlyPushAndCallStore :
    Steps (holding 0 [0x45, 7]) (fun t => readByte t.mem 243 ≠ readByte (holding 0 [0x45, 7]).mem 243) ∧
    Steps (holding 0 [0x50, 7]) (fun t => readByte t.mem 243 ≠ readByte (holding 0 [0x50, 7]).mem 243) :=
  ⟨⟨_, rfl, by decide⟩, _, rfl, by decide⟩

theorem witness_PcHoldsOrAdvances : Steps (holding 255 [0x01]) (fun t => t.run = .halted) ∧
    Steps (holding 254 [0x47, 7]) (fun t => t.run = .running) ∧ (0x47 : Byte) ∈ twoByteOpcodes ∧
    (0x47 : Byte) ∉ noAdvanceOpcodes ∧
    Steps (holding 253 [0xA0, 7, 0]) (fun t => t.run = .running) ∧ (0xA0 : Byte) ∈ threeByteOpcodes :=
  ⟨⟨_, rfl, by decide⟩, ⟨_, rfl, by decide⟩, by decide, by decide, ⟨_, rfl, by decide⟩, by decide⟩

theorem witness_StepAnswersAndCounts :
    State.reset.run = .running ∧ (haltWith .arithmeticError State.reset).run = .halted := by decide

theorem witness_HaltedIsTerminal : (haltWith .arithmeticError State.reset).run = .halted := by decide

theorem witness_LoadMeetsInv : ∃ t, loadImage [0x82, 0, 8, 0x47, 0, 1] State.reset = .ok t := ⟨_, rfl⟩

theorem witness_StepKeepsInv : Inv (holding 253 [0xA7, 7, 0]) ∧ Steps (holding 253 [0xA7, 7, 0]) (fun _ => True) :=
  ⟨by decide, _, rfl, trivial⟩

theorem witness_FlagsTakeFourValues :
    NoFlag (holding 0 [0xA7, 7, 0]).flags ∧ Steps (holding 0 [0xA7, 7, 0]) (fun t => t.run = .running) ∧
    OneFlag (compareFlags 0 0) ∧ Steps { holding 0 [0x11] with flags := compareFlags 0 0 } (fun _ => True) ∧
    opcodeAt (holding 0 [0xA7, 7, 0]) = 0xA7 :=
  ⟨by decide, ⟨_, rfl, by decide⟩, by decide, ⟨_, rfl, trivial⟩, by decide⟩

theorem witness_ReadsAndWritesByTheTable :
    (¬writesReg (.add 0 1) 7 ∧ Completes (.add 0 1)) ∧
    (¬readsReg false (.ldi 7 1) 7 ∧ writesReg (.ldi 7 1) 7 ∧ Completes (.ldi 7 1)) ∧
    (¬readsReg State.reset.flags.equal (.jeq 7) 7 ∧ ¬writesReg (.jeq 7) 7 ∧ Completes (.jeq 7)) :=
  ⟨⟨by simp [writesReg], _, rfl⟩, ⟨by simp [readsReg], by simp [writesReg], _, rfl⟩,
    by simp [readsReg, State.reset], by simp [writesReg], _, rfl⟩

/-! ## Laws of several instructions -/

theorem witness_PushThenPopRestores : 6 < 8 ∧ 0 < 8 ∧ (6 : Nat) ≠ 7 ∧ (0 : Nat) ≠ 7 := by decide

/-- CALL R7 at address 10 stores the return address 12 at 243; the state before a RET at address 0 keeps both. -/
theorem witness_RetResumesAfterCall :
    let s := holding 10 [0x50, 7]
    let u := { State.reset with regs := State.reset.regs.set 7 243, mem := [(0, 0x11), (243, 12)] }
    Fits s 0x50 2 ∧ (operand1 s).toNat < 8 ∧ u.run = .running ∧ opcodeAt u = 0x11 ∧
    Steps s (fun t => u.regs[7] = t.regs[7] ∧ readByte u.mem u.regs[7].toNat = readByte t.mem t.regs[7].toNat) :=
  ⟨by decide, by decide, by decide, by decide, _, rfl, by decide⟩

theorem witness_BranchesFollowCmp : 7 < 8 ∧ 0 < 8 ∧ State.reset.regs[7] ≠ State.reset.regs[0] ∧
    State.reset.regs[1] = State.reset.regs[0] := by decide

/-- With SP at 244 the byte goes to 243, which is the next fetch's opcode, first or second operand byte when the next
instruction is at 243, 242 or 241. PUSH R0 of 0x01, PUSH R7 and CALL R7 fetch it as the opcode. -/
theorem witness_StoredByteIsFetchedNext :
    (Fits (holdingRegs 241 [0x45, 0] (State.reset.regs.set 0 0x01)) 0x45 2 ∧
      (operand1 (holding 241 [0x45, 0])).toNat = 0 ∧ (State.reset.regs.set 0 0x01)[0] = 0x01 ∧
      (State.reset.regs[7].toNat + 255) % 256 = 243 ∧ (241 + 2) % 256 = 243) ∧
    (Fits (holding 240 [0x45, 0]) 0x45 2 ∧ (240 + 2) % 256 + 1 = 243) ∧
    (Fits (holding 239 [0x45, 7]) 0x45 2 ∧ (239 + 2) % 256 + 2 = 243) ∧
    Steps (holding 241 [0x45, 7]) (fun t => t.pc.toNat = 243) ∧
    Fits (holding 254 [0x50, 7]) 0x50 2 ∧ Steps (holding 254 [0x50, 7]) (fun t => t.pc.toNat = 243) ∧
    Steps (holdingRegs 0 [0x50, 0] (State.reset.regs.set 0 242)) (fun t => t.pc.toNat + 1 = 243) ∧
    Steps (holdingRegs 0 [0x50, 0] (State.reset.regs.set 0 241)) (fun t => t.pc.toNat + 2 = 243) :=
  ⟨by decide, by decide, by decide, ⟨_, rfl, by decide⟩, by decide, ⟨_, rfl, by decide⟩, ⟨_, rfl, by decide⟩,
    _, rfl, by decide⟩

theorem witness_LdiThenPrnOutputs :
    let s := holding 251 [0x82, 7, 200, 0x47, 7]
    s.run = .running ∧ s.pc.toNat + 5 ≤ 256 ∧ opcodeAt s = 0x82 ∧ (operand1 s).toNat = 7 ∧ operand2 s = 200 ∧
    readByte s.mem (s.pc.toNat + 3) = 0x47 ∧ (readByte s.mem (s.pc.toNat + 4)).toNat = 7 := by decide

/-! ## Memory, reset and the host's operations -/

theorem witness_MemWriteStoresModulo256 : 255 ≤ 255 ∧ 255 < 256 := by decide

theorem witness_CanonicalMemoryIsUnique : Memory.wf [(0, 1), (255, 2)] := by decide

theorem witness_LoadPlacesTheImage :
    (List.replicate 256 0).length ≤ 256 ∧ 256 < (List.replicate 257 0).length := by
  simp only [List.length_replicate]; decide

theorem witness_BoundedRunEnds : State.reset.cycles ≤ 0 ∧ State.reset.cycles ≤ 3 ∧
    (haltWith .arithmeticError State.reset).run = .halted := by decide

theorem witness_StatusReadsAreFaithful : causeCode none = causeCode none := rfl

/-! ## Fetch, decode and encode -/

theorem witness_StepRunsDecodedInstruction :
    let s := holding 253 [0xA0, 0, 9]
    s.run = .running ∧ (Instr.add 0 9).WellFormed ∧ decode [0xA0, 0, 9] = .ok (.add 0 9, []) ∧
    s.pc.toNat + 3 ≤ 256 ∧ readByte s.mem 253 = 0xA0 ∧ readByte s.mem 254 = 0 ∧ readByte s.mem 255 = 9 := by decide

theorem witness_DecodeOfEncode : (Instr.mod 255 255).WellFormed := by decide

theorem witness_EncodeOfDecode : decode [0x69, 255, 255, 1] = .ok (.not 255 255, [1]) := by decide

end Sys2Proof.Tests
end

/-! # The state family (10_state.md): frames, the flags, the invariant, reads and writes by the table of R24 -/

namespace Sys2Proof.Machine

/-! ## What an instruction leaves unchanged, halts included -/

/-- The statements' error halt is the one the model takes. -/
theorem haltWith_eq_errorHalt (e : ErrorKind) (s : State) : haltWith e s = errorHalt e s := rfl

theorem ruleOf_error_ne_unsupportedOperation {i : Instr} {s : State} {e : ErrorKind} (h : ruleOf i s = .error e) :
    e ≠ .unsupportedOperation := by
  rcases ruleOf_error h with ⟨rfl, _⟩ | ⟨rfl, _⟩ <;> decide

theorem exec_flags {i : Instr} {s t : State} (h : exec i s = .next t) :
    t.flags = s.flags ∨ (∃ a b, i = .cmp a b) ∧ OneFlag t.flags := by
  rcases exec_cases h with h | ⟨e, _, rfl⟩
  · exact ruleOf_ok_flags h
  · exact .inl rfl

theorem exec_mem {i : Instr} {s t : State} (h : exec i s = .next t) :
    t.mem = s.mem ∨ (∃ v, t.mem = writeByte s.mem (topAddress (decSp s)) v) ∧ ∃ a, i = .push a ∨ i = .call a := by
  rcases exec_cases h with h | ⟨e, _, rfl⟩
  · exact ruleOf_ok_mem h
  · exact .inl rfl

/-- Run state and cause after an instruction: as before, a clean halt by HLT, or an error halt of a kind a rule raises. -/
theorem exec_run {i : Instr} {s t : State} (h : exec i s = .next t) :
    (i ≠ .hlt ∧ t.run = s.run ∧ t.cause = s.cause) ∨ (i = .hlt ∧ t = haltClean s) ∨
      ∃ e, e ≠ .unsupportedOperation ∧ t = haltWith e s := by
  rcases exec_cases h with h | ⟨e, he, rfl⟩
  · obtain ⟨-, hlt | other⟩ := ruleOf_ok_run h
    · exact .inr (.inl hlt)
    · exact .inl other
  · exact .inr (.inr ⟨e, ruleOf_error_ne_unsupportedOperation he, rfl⟩)

theorem exec_mem_wf {i : Instr} {s t : State} (hm : Memory.wf s.mem) (h : exec i s = .next t) : Memory.wf t.mem := by
  rcases exec_mem h with he | ⟨⟨v, he⟩, -⟩
  · rwa [he]
  · rw [he]
    exact writeByte_wf hm (topAddress_lt _) v

theorem exec_keeps_cycles {i : Instr} {s t : State} (h : exec i s = .next t) : t.cycles = s.cycles := by
  rcases exec_cases h with h | ⟨e, _, rfl⟩
  · exact (ruleOf_ok_run h).1
  · rfl

/-- A rule that raised nothing keeps every register the table of R24 does not name as written. -/
theorem ruleOf_ok_regs {i : Instr} {s t : State} (h : ruleOf i s = .ok t) {j : Nat} (hj : j < 8)
    (hw : ¬writesReg i j) : t.regs[j] = s.regs[j] := by
  cases i with
  | ldi ra imm => obtain ⟨hra, rfl⟩ := loadImmediate_inv h; exact Vector.getElem_set_ne hra hj (Ne.symm hw)
  | prn ra => obtain ⟨_, rfl⟩ := printRegister_inv h; rfl
  | hlt => cases h; rfl
  | push ra => obtain ⟨_, rfl⟩ := pushRegister_inv h; exact Vector.getElem_set_ne (by decide) hj (Ne.symm hw)
  | pop ra =>
    obtain ⟨_, rfl⟩ := popRegister_inv h
    obtain ⟨hra, h7⟩ := not_or.mp hw
    simp [Vector.getElem_set_ne, Ne.symm hra, Ne.symm h7]
  | call ra =>
    rw [ruleOf, callRegister_eq] at h
    obtain ⟨_, rfl⟩ := jumpTo_inv h
    exact Vector.getElem_set_ne (by decide) hj (Ne.symm hw)
  | ret => rw [ruleOf, returnFromCall_eq] at h; cases h; exact Vector.getElem_set_ne (by decide) hj (Ne.symm hw)
  | cmp ra rb => obtain ⟨_, _, rfl⟩ := aluCompare_inv h; rfl
  | jmp ra => obtain ⟨_, rfl⟩ := jumpTo_inv h; rfl
  | jeq ra => rcases branchIf_inv h with ⟨_, rfl⟩ | ⟨_, _, rfl⟩ <;> rfl
  | jne ra => rcases branchIf_inv h with ⟨_, rfl⟩ | ⟨_, _, rfl⟩ <;> rfl
  | not ra pad => obtain ⟨hra, _, _, rfl⟩ := aluUnary_inv h; exact Vector.getElem_set_ne hra hj (Ne.symm hw)
  | _ ra rb => obtain ⟨hra, _, _, _, rfl⟩ := aluBinary_inv h; exact Vector.getElem_set_ne hra hj (Ne.symm hw)

theorem exec_keeps_reg {i : Instr} {s t : State} (h : exec i s = .next t) {j : Nat} (hj : j < 8)
    (hw : ¬writesReg i j) : t.regs[j] = s.regs[j] := by
  rcases exec_cases h with h | ⟨e, _, rfl⟩
  · exact ruleOf_ok_regs h hj hw
  · rfl

theorem exec_keeps_flags {i : Instr} {s t : State} (h : exec i s = .next t) (hi : ∀ a b, i ≠ .cmp a b) :
    t.flags = s.flags := by
  rcases exec_flags h with hf | ⟨⟨a, b, hc⟩, -⟩
  · exact hf
  · exact absurd hc (hi a b)

theorem exec_keeps_mem {i : Instr} {s t : State} (h : exec i s = .next t) (hi : ∀ a, i ≠ .push a ∧ i ≠ .call a)
    (a : Nat) : readByte t.mem a = readByte s.mem a := by
  rcases exec_mem h with hm | ⟨-, b, hb | hb⟩
  · rw [hm]
  · exact absurd hb (hi b).1
  · exact absurd hb (hi b).2

/-- Whatever the instruction, memory changes at most in the byte the decremented SP names. -/
theorem exec_keeps_mem_off_top {i : Instr} {s t : State} (h : exec i s = .next t) {b : Nat}
    (hb : b ≠ topAddress (decSp s)) : readByte t.mem b = readByte s.mem b := by
  rcases exec_mem h with hm | ⟨⟨v, hm⟩, -⟩
  · rw [hm]
  · rw [hm, readByte_writeByte, if_neg hb]

theorem exec_keeps_out {i : Instr} {s t : State} (h : exec i s = .next t) (hi : ∀ a, i ≠ .prn a) : t.out = s.out := by
  rcases exec_cases h with h | ⟨e, _, rfl⟩
  · rcases ruleOf_ok_out h with ho | ⟨a, _, hp, -⟩
    · exact ho
    · exact absurd hp (hi a)
  · rfl

theorem exec_runFrame {i : Instr} {s t : State} (h : exec i s = .next t) (hi : i ≠ .hlt) : RunFrame s t := by
  rcases exec_run h with ⟨-, hr⟩ | ⟨hh, -⟩ | ⟨e, -, he⟩
  · exact .inl hr
  · exact absurd hh hi
  · exact .inr ⟨e, he.trans (haltWith_eq_errorHalt e s)⟩

/-! ## The step in Running -/

/-- The opcode map and the encoder agree: a row makes instructions of its own opcode. -/
theorem opcodeOf_buildInstr {op : Byte} {f : OpForm} (h : opForm op = some f) (b1 b2 : Byte) :
    opcodeOf (buildInstr f b1 b2) = op := by
  rcases opForm_cases h with h | h | h | h | h | h | h | h | h | h | h | h | h | h | h | h | h | h | h | h <;>
    obtain ⟨rfl, rfl⟩ := h <;> rfl

/-- A step in Running is an error halt or executes an instruction of the opcode under the pc. -/
theorem step_running_cases {s t : State} (hr : s.run = .running) (h : step s = .next t) :
    (∃ e, e ≠ .unsupportedOperation ∧ t = haltWith e (countCycle s)) ∨
      ∃ i, opcodeOf i = opcodeAt s ∧ exec i (countCycle s) = .next t := by
  rcases step_cases hr h with ⟨-, rfl⟩ | ⟨f, hf, ⟨-, rfl⟩ | ⟨-, hx⟩⟩
  · exact .inl ⟨_, by decide, rfl⟩
  · exact .inl ⟨_, by decide, rfl⟩
  · exact .inr ⟨_, opcodeOf_buildInstr hf _ _, hx⟩

/-! ## The invariant -/

theorem countCycle_inv {s : State} (h : Inv s) : Inv (countCycle s) := h

theorem haltWith_inv {s : State} {e : ErrorKind} (h : Inv s) (he : e ≠ .unsupportedOperation) : Inv (haltWith e s) := by
  obtain ⟨hm, hf, -, -⟩ := h
  exact ⟨hm, hf, by simp, by simpa using he⟩

theorem exec_inv {i : Instr} {s t : State} (hs : Inv s) (h : exec i s = .next t) : Inv t := by
  obtain ⟨hm, hf, hc, hu⟩ := hs
  have hft : NoFlag t.flags ∨ OneFlag t.flags := by
    rcases exec_flags h with he | ⟨-, ho⟩
    · rwa [he]
    · exact .inr ho
  refine ⟨exec_mem_wf hm h, hft, ?_⟩
  rcases exec_run h with ⟨-, hrun, hcause⟩ | ⟨-, rfl⟩ | ⟨e, he, rfl⟩
  · rw [hrun, hcause]
    exact ⟨hc, hu⟩
  · simp
  · simpa using he

/-- Settles O42: an iteration is an error halt or one instruction, and both keep each part of the invariant. -/
theorem stepKeepsInv : Obligations.StepKeepsInv := by
  intro s t hs h
  cases hr : s.run with
  | halted =>
    rw [step_of_halted hr] at h
    cases h
    exact hs
  | running =>
    rcases step_running_cases hr h with ⟨e, he, rfl⟩ | ⟨i, -, hx⟩
    · exact haltWith_inv (countCycle_inv hs) he
    · exact exec_inv (countCycle_inv hs) hx

/-! ## The flags -/

/-- CMP on two existing registers sets one flag; on others it is an error halt. -/
theorem exec_cmp_flags {a b : Nat} {s t : State} (h : exec (.cmp a b) s = .next t) :
    OneFlag t.flags ∨ ∃ e, t = haltWith e s := by
  rcases exec_cases h with h | ⟨e, -, rfl⟩
  · obtain ⟨_, _, rfl⟩ := aluCompare_inv h
    exact .inl (compareFlags_oneFlag _ _)
  · exact .inr ⟨e, rfl⟩

theorem opcodeOf_eq_cmp {i : Instr} (h : opcodeOf i = 0xA7) : ∃ a b, i = .cmp a b := by
  cases i with
  | cmp a b => exact ⟨a, b, rfl⟩
  | _ => simp [opcodeOf] at h

/-- A step keeps the flags, or it is a CMP that completes and leaves exactly one set. -/
theorem step_flags {s t : State} (h : step s = .next t) :
    t.flags = s.flags ∨ s.run = .running ∧ opcodeAt s = 0xA7 ∧ OneFlag t.flags := by
  cases hr : s.run with
  | halted =>
    rw [step_of_halted hr] at h
    cases h
    exact .inl rfl
  | running =>
    rcases step_running_cases hr h with ⟨e, -, rfl⟩ | ⟨i, hi, hx⟩
    · exact .inl rfl
    · rcases exec_flags hx with hf | ⟨⟨a, b, rfl⟩, ho⟩
      · exact .inl hf
      · exact .inr ⟨rfl, hi.symm, ho⟩

theorem step_cmp_oneFlag {s t : State} (h : step s = .next t) (hr : s.run = .running) (hop : opcodeAt s = 0xA7)
    (ht : t.run = .running) : OneFlag t.flags := by
  rcases step_running_cases hr h with ⟨e, -, rfl⟩ | ⟨i, hi, hx⟩
  · cases ht
  · obtain ⟨a, b, rfl⟩ := opcodeOf_eq_cmp (hi.trans hop)
    rcases exec_cmp_flags hx with ho | ⟨e, rfl⟩
    · exact ho
    · cases ht

/-- Settles O34: `step_flags` leaves only a CMP to change them. -/
theorem onlyCmpChangesFlags : Obligations.OnlyCmpChangesFlags := by
  intro s t h hne
  rcases step_flags h with hf | ⟨hr, hop, -⟩
  · exact absurd hf hne
  · exact ⟨hr, hop⟩

/-- Settles O43: `step_flags` from no flag and from one flag, and `step_cmp_oneFlag` for a CMP that completes. -/
theorem flagsTakeFourValues : Obligations.FlagsTakeFourValues := by
  refine ⟨rfl, fun s t h hs => ?_, fun s t h hs => ?_, fun s t h => step_cmp_oneFlag h⟩
  · rcases step_flags h with hf | ⟨-, hop, ho⟩
    · exact .inl (hf.trans hs)
    · exact .inr ⟨hop, ho⟩
  · rcases step_flags h with hf | ⟨-, -, ho⟩
    · rwa [hf]
    · exact ho

/-! ## The frames of R24 -/

/-- Settles O21: each of the ten writes `ra` alone by the table, and is none of CMP, PUSH, CALL, PRN and HLT. -/
theorem registerWritersFrame : Obligations.RegisterWritersFrame := by
  intro s t ra rb imm pad i hi h
  simp only [List.mem_cons, List.not_mem_nil, or_false] at hi
  rcases hi with rfl | rfl | rfl | rfl | rfl | rfl | rfl | rfl | rfl | rfl <;>
    exact ⟨fun j hj hne => exec_keeps_reg h hj hne, exec_keeps_flags h (by simp), exec_keeps_mem h (by simp),
      exec_keeps_out h (by simp), exec_keeps_cycles h, exec_runFrame h (by simp)⟩

/-- Settles O22: CMP writes no register; where it changes the run state it is the error halt, which keeps the flags. -/
theorem cmpFrame : Obligations.CmpFrame := by
  intro s t ra rb h
  have hrun : RunFrame s t := exec_runFrame h (by simp)
  refine ⟨fun j hj => exec_keeps_reg h hj id, exec_keeps_mem h (by simp), exec_keeps_out h (by simp),
    exec_keeps_cycles h, hrun, fun hne => ?_⟩
  rcases hrun with ⟨hr, -⟩ | ⟨e, rfl⟩
  · exact absurd hr hne
  · rfl

/-- Settles O23: both write R7 alone, and memory only under the decremented SP. -/
theorem pushAndCallFrame : Obligations.PushAndCallFrame := by
  intro s t ra i hi h
  simp only [List.mem_cons, List.not_mem_nil, or_false] at hi
  have hmem : ∀ a, topAddress (decSp s) = a → ∀ b, b ≠ a → readByte t.mem b = readByte s.mem b := by
    rintro _ rfl b hb
    exact exec_keeps_mem_off_top h hb
  rcases hi with rfl | rfl <;>
    exact ⟨fun j hj hne => exec_keeps_reg h hj hne, exec_keeps_flags h (by simp), hmem,
      exec_keeps_out h (by simp), exec_keeps_cycles h, exec_runFrame h (by simp)⟩

/-- Settles O24: POP writes `ra` and R7 by the table. -/
theorem popFrame : Obligations.PopFrame := by
  intro s t ra h
  exact ⟨fun j hj h7 hra => exec_keeps_reg h hj (not_or.mpr ⟨hra, h7⟩), exec_keeps_flags h (by simp),
    exec_keeps_mem h (by simp), exec_keeps_out h (by simp), exec_keeps_cycles h, exec_runFrame h (by simp)⟩

/-- RET raises nothing: the byte SP names becomes the pc, and SP is incremented. -/
theorem exec_ret (s : State) : exec .ret s = .next (withPc (readByte s.mem (topAddress s)) (incSp s)) := by
  rw [exec_eq_conclude, ruleOf, returnFromCall_eq, conclude_ok]

/-- Settles O25: RET writes R7 alone by the table, and cannot halt. -/
theorem retFrame : Obligations.RetFrame := by
  intro s t h
  have ht := h
  rw [exec_ret] at ht
  cases ht
  exact ⟨fun j hj hne => exec_keeps_reg h hj hne, rfl, fun _ => rfl, rfl, rfl, rfl, rfl⟩

/-- Settles O26: the five write no register by the table and are none of CMP, PUSH and CALL; of them HLT alone halts
cleanly. -/
theorem jumpPrintHaltFrame : Obligations.JumpPrintHaltFrame := by
  intro s t ra i hi h
  simp only [List.mem_cons, List.not_mem_nil, or_false] at hi
  have hout : i ≠ .prn ra → t.out = s.out := fun hp => exec_keeps_out h <| by
    rintro a rfl
    exact hp (by simpa using hi)
  have hhlt : i = .hlt → t.pc = s.pc ∧ CleanHalt t := by
    rintro rfl
    cases h
    exact ⟨rfl, rfl, rfl⟩
  have hrun : i ≠ .hlt → RunFrame s t := fun hh => exec_runFrame h hh
  rcases hi with rfl | rfl | rfl | rfl | rfl <;>
    exact ⟨fun j hj => exec_keeps_reg h hj id, exec_keeps_flags h (by simp), exec_keeps_mem h (by simp),
      exec_keeps_cycles h, hout, hrun, hhlt⟩

/-! ## Replacing a register an instruction does not read -/

section
variable {i j : Nat} (hj : j < 8) (v : Byte) (s : State)

@[simp] theorem setReg_mem : (setReg j hj v s).mem = s.mem := rfl
@[simp] theorem setReg_flags : (setReg j hj v s).flags = s.flags := rfl

theorem setReg_regs_ne (hi : i < 8) (hne : j ≠ i) : (setReg j hj v s).regs[i] = s.regs[i] :=
  Vector.getElem_set_ne hj hi hne

/-- Writes of two different registers commute. -/
theorem withRegs_set_setReg (hi : i < 8) (hne : j ≠ i) (w : Byte) :
    withRegs ((setReg j hj v s).regs.set i w) (setReg j hj v s) = setReg j hj v (withRegs (s.regs.set i w) s) :=
  congrArg (withRegs · s) (Vector.set_comm v w hne)

/-- A write of the same register forgets the replacement. -/
theorem withRegs_set_setReg_same (w : Byte) :
    withRegs ((setReg j hj v s).regs.set j w) (setReg j hj v s) = withRegs (s.regs.set j w) s :=
  congrArg (withRegs · s) (Vector.set_set ..)

theorem topAddress_setReg (h7 : j ≠ 7) : topAddress (setReg j hj v s) = topAddress s :=
  congrArg BitVec.toNat (setReg_regs_ne hj v s (by decide) h7)

theorem decSp_setReg (h7 : j ≠ 7) : decSp (setReg j hj v s) = setReg j hj v (decSp s) := by
  rw [decSp, sp, setReg_regs_ne hj v s (by decide) h7]
  exact withRegs_set_setReg hj v s (by decide) h7 _

theorem incSp_setReg (h7 : j ≠ 7) : incSp (setReg j hj v s) = setReg j hj v (incSp s) := by
  rw [incSp, sp, setReg_regs_ne hj v s (by decide) h7]
  exact withRegs_set_setReg hj v s (by decide) h7 _

theorem readReg_setReg (hne : j ≠ i) : readReg i (setReg j hj v s) = readReg i s := by
  by_cases hi : i < 8
  · rw [readReg_of_lt hi, readReg_of_lt hi, setReg_regs_ne hj v s hi hne]
  · rw [readReg_of_ge (by omega), readReg_of_ge (by omega)]

theorem jumpTo_setReg (hne : j ≠ i) : jumpTo i (setReg j hj v s) = (jumpTo i s).map (setReg j hj v) := by
  rw [jumpTo, readReg_setReg hj v s hne, jumpTo]
  cases readReg i s <;> rfl

theorem branchIf_setReg {taken : Bool} (hne : ¬(taken = true ∧ j = i)) :
    branchIf taken i (setReg j hj v s) = (branchIf taken i s).map (setReg j hj v) := by
  cases taken with
  | false => rfl
  | true => exact jumpTo_setReg hj v s fun h => hne ⟨rfl, h⟩

theorem printRegister_setReg (hne : j ≠ i) :
    printRegister i (setReg j hj v s) = (printRegister i s).map (setReg j hj v) := by
  rw [printRegister, readReg_setReg hj v s hne, printRegister]
  cases readReg i s <;> rfl

theorem writeReg_setReg (hne : j ≠ i) (w : Nat) :
    writeReg i w (setReg j hj v s) = (writeReg i w s).map (setReg j hj v) := by
  by_cases hi : i < 8
  · rw [writeReg_of_lt hi, writeReg_of_lt hi, withRegs_set_setReg hj v s hi hne]; rfl
  · rw [writeReg_of_ge (by omega), writeReg_of_ge (by omega)]; rfl

theorem loadImmediate_setReg (hne : j ≠ i) (imm : Byte) :
    loadImmediate i imm (setReg j hj v s) = (loadImmediate i imm s).map (setReg j hj v) := by
  rw [loadImmediate, writeReg_setReg hj v s hne, loadImmediate]
  cases writeReg i imm.toNat s <;> rfl

theorem pushRegister_setReg (h7 : j ≠ 7) (hne : j ≠ i) :
    pushRegister i (setReg j hj v s) = (pushRegister i s).map (setReg j hj v) := by
  simp only [pushRegister, decSp_setReg hj v s h7, readReg_setReg hj v (decSp s) hne, storeTop_eq,
    topAddress_setReg hj v (decSp s) h7]
  cases readReg i (decSp s) <;> rfl

theorem popRegister_setReg (h7 : j ≠ 7) (hne : j ≠ i) :
    popRegister i (setReg j hj v s) = (popRegister i s).map (setReg j hj v) := by
  simp only [popRegister, loadTop_eq, setReg_mem, topAddress_setReg hj v s h7, bind_ok, writeReg_setReg hj v s hne]
  cases writeReg i (readByte s.mem (topAddress s)).toNat s with
  | ok t => exact congrArg (Except.ok ∘ advancePc 2) (incSp_setReg hj v t h7)
  | error e => rfl

theorem callRegister_setReg (h7 : j ≠ 7) (hne : j ≠ i) :
    callRegister i (setReg j hj v s) = (callRegister i s).map (setReg j hj v) := by
  rw [callRegister_eq, callRegister_eq, decSp_setReg hj v s h7, topAddress_setReg hj v (decSp s) h7]
  exact jumpTo_setReg hj v (withMem _ (decSp s)) hne

theorem returnFromCall_setReg (h7 : j ≠ 7) :
    returnFromCall (setReg j hj v s) = (returnFromCall s).map (setReg j hj v) := by
  rw [returnFromCall_eq, returnFromCall_eq, topAddress_setReg hj v s h7, incSp_setReg hj v s h7]
  rfl

theorem aluBinary_setReg (f : Byte → Byte → AluResult) {ra rb : Nat} (hne : ¬(j = ra ∨ j = rb)) :
    aluBinary f ra rb (setReg j hj v s) = (aluBinary f ra rb s).map (setReg j hj v) := by
  obtain ⟨ha, hb⟩ := not_or.mp hne
  by_cases hu : 8 ≤ ra ∨ 8 ≤ rb
  · rw [aluBinary_of_ge f hu, aluBinary_of_ge f hu]; rfl
  · have hra : ra < 8 := by omega
    have hrb : rb < 8 := by omega
    rw [aluBinary_of_lt f hra hrb, aluBinary_of_lt f hra hrb, setReg_regs_ne hj v s hra ha,
      setReg_regs_ne hj v s hrb hb]
    cases f s.regs[ra] s.regs[rb] with
    | ok w => exact congrArg (Except.ok ∘ advancePc 3) (withRegs_set_setReg hj v s hra ha w)
    | error c => rfl

theorem aluUnary_setReg (f : Byte → AluResult) (hne : j ≠ i) :
    aluUnary f i (setReg j hj v s) = (aluUnary f i s).map (setReg j hj v) := by
  by_cases hi : i < 8
  · rw [aluUnary_of_lt f hi, aluUnary_of_lt f hi, setReg_regs_ne hj v s hi hne]
    cases f s.regs[i] with
    | ok w => exact congrArg (Except.ok ∘ advancePc 3) (withRegs_set_setReg hj v s hi hne w)
    | error c => rfl
  · rw [aluUnary_of_ge f (by omega), aluUnary_of_ge f (by omega)]; rfl

theorem aluCompare_setReg (f : Byte → Byte → Flags) {ra rb : Nat} (hne : ¬(j = ra ∨ j = rb)) :
    aluCompare f ra rb (setReg j hj v s) = (aluCompare f ra rb s).map (setReg j hj v) := by
  obtain ⟨ha, hb⟩ := not_or.mp hne
  rw [aluCompare, readReg_setReg hj v s ha, readReg_setReg hj v s hb, aluCompare]
  cases readReg ra s <;> cases readReg rb s <;> rfl

/-- A rule carries the value of a register it neither reads nor writes through to the state it answers. -/
theorem ruleOf_setReg {n : Instr} (hr : ¬readsReg s.flags.equal n j) (hw : ¬writesReg n j) :
    ruleOf n (setReg j hj v s) = (ruleOf n s).map (setReg j hj v) := by
  cases n with
  | ldi ra imm => exact loadImmediate_setReg hj v s hw imm
  | prn ra => exact printRegister_setReg hj v s hr
  | hlt => rfl
  | push ra => exact pushRegister_setReg hj v s hw (not_or.mp hr).2
  | pop ra => exact popRegister_setReg hj v s hr (not_or.mp hw).1
  | call ra => exact callRegister_setReg hj v s hw (not_or.mp hr).2
  | ret => exact returnFromCall_setReg hj v s hr
  | cmp ra rb => exact aluCompare_setReg hj v s compareFlags hr
  | jmp ra => exact jumpTo_setReg hj v s hr
  | jeq ra => exact branchIf_setReg hj v s hr
  | jne ra => exact branchIf_setReg hj v s (by simpa [jneTaken, readsReg] using hr)
  | not ra pad => exact aluUnary_setReg hj v s aluNot hr
  | _ ra rb => exact aluBinary_setReg hj v s _ hr

/-- The halt keeps every register, so the replaced value is carried through an error as well. -/
theorem exec_setReg {n : Instr} {t : State} (hr : ¬readsReg s.flags.equal n j) (hw : ¬writesReg n j)
    (h : exec n s = .next t) : exec n (setReg j hj v s) = .next (setReg j hj v t) := by
  rw [exec_eq_conclude, ruleOf_setReg hj v s hr hw]
  rcases exec_cases h with hs | ⟨e, hs, rfl⟩ <;> rw [hs] <;> rfl

theorem loadImmediate_setReg_same (imm : Byte) : loadImmediate j imm (setReg j hj v s) = loadImmediate j imm s := by
  rw [loadImmediate_of_lt hj, loadImmediate_of_lt hj, withRegs_set_setReg_same hj v s imm]

theorem popRegister_setReg_same (h7 : j ≠ 7) : popRegister j (setReg j hj v s) = popRegister j s := by
  rw [popRegister_of_lt hj, popRegister_of_lt hj, topAddress_setReg hj v s h7, withRegs_set_setReg_same]
  rfl

/-- LDI and POP alone write a register they do not read; it exists, so neither halts, and nothing of the replaced value
is left. -/
theorem exec_setReg_of_writes {n : Instr} (hr : ¬readsReg s.flags.equal n j) (hw : writesReg n j) :
    exec n (setReg j hj v s) = exec n s := by
  have same : ruleOf n (setReg j hj v s) = ruleOf n s ∧ ∃ t, ruleOf n s = .ok t := by
    cases n with
    | ldi ra imm =>
      cases hw
      exact ⟨loadImmediate_setReg_same hj v s imm, _, loadImmediate_of_lt hj imm s⟩
    | pop ra =>
      obtain rfl := hw.resolve_right hr
      exact ⟨popRegister_setReg_same hj v s hr, _, popRegister_of_lt hj s⟩
    | _ => simp_all [readsReg, writesReg]
  obtain ⟨heq, t, ht⟩ := same
  rw [exec_eq_conclude, exec_eq_conclude, heq, ht]
  rfl

end

/-- Settles O44: the frame of every register not written, and the two cases of a register not read: written (LDI, POP)
and not written (the rule carries it through). -/
theorem readsAndWritesByTheTable : Obligations.ReadsAndWritesByTheTable := by
  refine ⟨fun i s t j hj hw h => exec_keeps_reg h hj hw, fun i s t j hj v hr h => ⟨fun hw => ?_, fun hw => ?_⟩⟩
  · rw [exec_setReg_of_writes hj v s hr hw, h]
  · exact exec_setReg hj v s hr hw h

end Sys2Proof.Machine

/-! # The memory family (20_memory.md): which steps store, what the next fetch sees, and `clear()` -/

namespace Sys2Proof.Machine

/-- Settles O52: the cleared memory lists no cell, and `withMem` touches no other field. -/
theorem clearZeroesMemoryOnly : Obligations.ClearZeroesMemoryOnly := fun _ => ⟨readByte_nil, rfl⟩

/-! ## The address of a store -/

theorem topAddress_decSp (s : State) : topAddress (decSp s) = (s.regs[7].toNat + 255) % 256 := by
  simp [topAddress, sp]

/-- A register as PUSH and CALL read it, after SP is decremented (D23). -/
theorem decSp_getElem_toNat (s : State) {j : Nat} (hj : j < 8) :
    (decSp s).regs[j].toNat = if j = 7 then (s.regs[7].toNat + 255) % 256 else s.regs[j].toNat := by
  by_cases h7 : j = 7
  · subst h7
    exact topAddress_decSp s
  · rw [if_neg h7, decSp_regs, Vector.getElem_set_ne (by decide) hj (Ne.symm h7)]

/-! ## Which steps store -/

/-- A step keeps memory, or it is a PUSH or CALL in Running and writes one byte under the decremented SP. -/
theorem step_mem {s t : State} (h : step s = .next t) :
    t.mem = s.mem ∨ s.run = .running ∧ (opcodeAt s = 0x45 ∨ opcodeAt s = 0x50) ∧
      ∃ v, t.mem = writeByte s.mem (topAddress (decSp s)) v := by
  cases hr : s.run with
  | halted =>
    rw [step_of_halted hr] at h
    cases h
    exact .inl rfl
  | running =>
    rcases step_running_cases hr h with ⟨e, -, rfl⟩ | ⟨i, hop, hx⟩
    · exact .inl rfl
    · rcases exec_mem hx with hm | ⟨hv, a, rfl | rfl⟩
      · exact .inl hm
      · exact .inr ⟨rfl, .inl hop.symm, hv⟩
      · exact .inr ⟨rfl, .inr hop.symm, hv⟩

/-- Settles O36: `step_mem` leaves only PUSH and CALL, and the read law of their one write only its own address. -/
theorem onlyPushAndCallStore : Obligations.OnlyPushAndCallStore := by
  intro s t a h hne
  rcases step_mem h with hm | ⟨hr, hop, v, hm⟩
  · exact absurd (congrArg (readByte · a) hm) hne
  · refine ⟨hr, hop, ?_⟩
    rw [← topAddress_decSp]
    by_contra ha
    exact hne (by rw [hm, readByte_writeByte, if_neg ha])

/-! ## The step of an opcode whose bytes lie in memory -/

/-- A step in Running on a legal opcode whose operand bytes lie in memory executes the instruction they make. -/
theorem step_of_opForm {s : State} {f : OpForm} (hr : s.run = .running) (hf : opForm (opcodeAt s) = some f)
    (hl : s.pc.toNat + formLength f ≤ 256) :
    step s = exec (buildInstr f (operand1 s) (operand2 s)) (countCycle s) := by
  have hfetch : fetch (countCycle s) = .ok (buildInstr f (operand1 s) (operand2 s)) := by
    rw [fetch_eq, countCycle_mem, countCycle_pc, ← opcodeAt, hf]
    exact if_pos hl
  rw [step_of_running hr, hfetch, exec_eq_conclude]

theorem step_push {s : State} (hr : s.run = .running) (hl : s.pc.toNat + 2 ≤ 256) (hra : (operand1 s).toNat < 8)
    (hop : opcodeAt s = 0x45) :
    step s = .next (advancePc 2 (withMem (writeByte s.mem (topAddress (decSp s)) (decSp s).regs[(operand1 s).toNat])
      (decSp (countCycle s)))) := by
  rw [step_of_opForm (f := .r .push) hr (by rw [hop]; rfl) hl, buildInstr, exec_eq_conclude, ruleOf,
    pushRegister_of_lt hra]
  rfl

theorem step_call {s : State} (hr : s.run = .running) (hl : s.pc.toNat + 2 ≤ 256) (hra : (operand1 s).toNat < 8)
    (hop : opcodeAt s = 0x50) :
    step s = .next (withPc (decSp s).regs[(operand1 s).toNat]
      (withMem (writeByte s.mem (topAddress (decSp s)) (mod256 (s.pc.toNat + 2))) (decSp (countCycle s)))) := by
  rw [step_of_opForm (f := .r .call) hr (by rw [hop]; rfl) hl, buildInstr, exec_eq_conclude, ruleOf,
    callRegister_eq, jumpTo_of_lt hra]
  rfl

theorem step_hlt {s : State} (hr : s.run = .running) (hop : opcodeAt s = 0x01) :
    step s = .next (haltClean (countCycle s)) :=
  step_of_opForm (f := .z .hlt) hr (by rw [hop]; rfl) s.pc.isLt

/-! ## What the next fetch sees -/

/-- The fetch reads the memory of its own state, in each of its three places. -/
theorem fetchesNext_of_readByte {t : State} {a : Nat} {v : Byte} (hr : t.run = .running)
    (h : readByte t.mem a = v) : FetchesNext t a v := by
  refine ⟨hr, ?_, ?_, ?_⟩ <;>
    · rintro rfl
      exact h

/-- A Running state whose memory had one byte written, under the decremented SP of `s`, fetches that byte there. -/
theorem fetchesNext_of_writeByte {s t : State} {v : Byte} (hr : t.run = .running)
    (hm : t.mem = writeByte s.mem (topAddress (decSp s)) v) :
    FetchesNext t ((s.regs[7].toNat + 255) % 256) v :=
  fetchesNext_of_readByte hr (by rw [hm, topAddress_decSp, readByte_writeByte, if_pos rfl])

/-- Where the next fetch gives 0x01 as its opcode, the next step is the clean halt of HLT, which keeps the pc (D10). -/
theorem FetchesNext.cleanHalt {t : State} {a : Nat} {v : Byte} (h : FetchesNext t a v) (hv : v = 0x01)
    (hpc : t.pc.toNat = a) : ∃ u, step t = .next u ∧ CleanHalt u ∧ u.pc = t.pc := by
  obtain ⟨hr, hop, -, -⟩ := h
  exact ⟨_, step_hlt hr ((hop hpc).trans hv), ⟨rfl, rfl⟩, rfl⟩

/-- Settles O48: `step_push` and `step_call` give the state after the store, and its memory holds the byte where the
next fetch looks; a stored 0x01 under the pc is a HLT. -/
theorem storedByteIsFetchedNext : Obligations.StoredByteIsFetchedNext := by
  intro s hr hl hra
  refine ⟨fun hop => ?_, fun hop => ?_⟩
  · refine ⟨_, _, step_push hr hl hra hop, decSp_getElem_toNat s hra, mod256_toNat _, ?fetch,
      FetchesNext.cleanHalt ?fetch⟩
    exact fetchesNext_of_writeByte hr rfl
  · refine ⟨_, _, step_call hr hl hra hop, mod256_toNat _, decSp_getElem_toNat s hra, ?_⟩
    exact fetchesNext_of_writeByte hr rfl

end Sys2Proof.Machine

/-! # The encoding family (30_encoding.md): the decoder's two answers on a whole word, and an LDI followed by a PRN -/

namespace Sys2Proof.Machine

/-! ## What the decoder answers -/

/-- A legal opcode with all its operand bytes decodes to the instruction of its row (R71, R75). -/
theorem decode_of_opForm {op : Byte} {rest : List Byte} {f : OpForm} (hf : opForm op = some f)
    (hl : formLength f ≤ rest.length + 1) :
    decode (op :: rest) = .ok (buildInstr f (rest.getD 0 0) (rest.getD 1 0), rest.drop (formLength f - 1)) := by
  simp only [decode, hf]
  exact if_neg (Nat.not_lt.mpr hl)

/-- A byte that is none of the twenty opcodes is rejected by name, whatever follows it (R77). -/
theorem decode_of_notMem_allOpcodes {op : Byte} (h : op ∉ allOpcodes) (rest : List Byte) :
    decode (op :: rest) = .error (.unknownInstruction op) := by
  simp only [decode, (opForm_eq_none op).mpr h]

/-- Settles O58: six opcodes of the map, each with the row it names, and two bytes outside the map. -/
theorem opcodeMapWords : Obligations.OpcodeMapWords :=
  ⟨decode_of_opForm (f := .ri .ldi) rfl (by decide), decode_of_opForm (f := .r .prn) rfl (by decide),
    decode_of_opForm (f := .z .hlt) rfl (by decide), decode_of_opForm (f := .rr .cmp) rfl (by decide),
    decode_of_opForm (f := .rx .not) rfl (by decide), decode_of_opForm (f := .r .call) rfl (by decide),
    decode_of_notMem_allOpcodes (by decide) _, decode_of_notMem_allOpcodes (by decide) _⟩

/-! ## An LDI and the PRN after it -/

theorem step_ldi {s : State} (hr : s.run = .running) (hl : s.pc.toNat + 3 ≤ 256) (hra : (operand1 s).toNat < 8)
    (hop : opcodeAt s = 0x82) :
    step s = .next (advancePc 3 (withRegs (s.regs.set (operand1 s).toNat (operand2 s)) (countCycle s))) := by
  rw [step_of_opForm (f := .ri .ldi) hr (by rw [hop]; rfl) hl, buildInstr, exec_eq_conclude, ruleOf,
    loadImmediate_of_lt hra]
  rfl

theorem step_prn {s : State} (hr : s.run = .running) (hl : s.pc.toNat + 2 ≤ 256) (hra : (operand1 s).toNat < 8)
    (hop : opcodeAt s = 0x47) :
    step s = .next (advancePc 2 (emit s.regs[(operand1 s).toNat] (countCycle s))) := by
  rw [step_of_opForm (f := .r .prn) hr (by rw [hop]; rfl) hl, buildInstr, exec_eq_conclude, ruleOf,
    printRegister_of_lt hra]
  rfl

/-- What an LDI that ends below the top of memory leaves for the instruction after it: the same memory and output, its
register loaded, and a pc three bytes on that does not wrap (D7). -/
theorem step_ldi_below_top {s : State} (hr : s.run = .running) (hl : s.pc.toNat + 3 < 256)
    (hra : (operand1 s).toNat < 8) (hop : opcodeAt s = 0x82) :
    ∃ t, step s = .next t ∧ t.run = .running ∧ t.mem = s.mem ∧ t.out = s.out ∧ t.pc.toNat = s.pc.toNat + 3 ∧
      t.regs = s.regs.set (operand1 s).toNat (operand2 s) := by
  refine ⟨_, step_ldi hr hl.le hra hop, hr, rfl, rfl, ?_, rfl⟩
  exact (mod256_toNat _).trans (Nat.mod_eq_of_lt hl)

/-- Settles O49: the LDI leaves the byte in the register and the pc at the PRN (`step_ldi_below_top`), whose two bytes
still lie in memory; the PRN emits what the register it names holds (`step_prn`). -/
theorem ldiThenPrnOutputs : Obligations.LdiThenPrnOutputs := by
  rintro s x v hx hr hl hop rfl rfl hprn hprnReg
  obtain ⟨t, hstep, hrun, hmem, hout, hpc, hregs⟩ := step_ldi_below_top hr (by omega) hx hop
  have hopcode : opcodeAt t = 0x47 := by rw [opcodeAt, hmem, hpc, hprn]
  have hoperand : (operand1 t).toNat = (operand1 s).toNat := by rw [operand1, hmem, hpc, hprnReg]
  have hlt : (operand1 t).toNat < 8 := hoperand ▸ hx
  have hreg : t.regs[(operand1 t).toNat] = operand2 s := by simp only [hregs, hoperand, Vector.getElem_set_self]
  refine ⟨t, _, hstep, step_prn hrun (by omega) hlt hopcode, ?_, hrun⟩
  rw [advancePc_out, emit_out, hreg, countCycle_out, hout]

end Sys2Proof.Machine

/-! # The register and stack family (40_register_and_stack.md): the fetch of an opcode with operand bytes, LDI, and the
push-pop law -/

namespace Sys2Proof.Machine

/-! ## What an instruction answers, read off its rule -/

theorem exec_of_ruleOf_ok {i : Instr} {s t : State} (h : ruleOf i s = .ok t) : exec i s = .next t := by
  rw [exec_eq_conclude, h, conclude_ok]

theorem exec_of_ruleOf_error {i : Instr} {s : State} {e : ErrorKind} (h : ruleOf i s = .error e) :
    exec i s = .next (errorHalt e s) := by
  rw [exec_eq_conclude, h, conclude_error, haltWith_eq_errorHalt]

/-! ## How a row of the opcode map is fetched -/

/-- A step in Running on a legal opcode with an operand byte above address 255 halts after counting the iteration (D8). -/
theorem step_of_opForm_past_top {s : State} {f : OpForm} (hr : s.run = .running) (hf : opForm (opcodeAt s) = some f)
    (hl : 256 < s.pc.toNat + formLength f) :
    step s = .next (errorHalt .addressOutOfRange (counted s)) := by
  have hfetch : fetch (countCycle s) = .error .addressOutOfRange := by
    rw [fetch_eq, countCycle_mem, countCycle_pc, ← opcodeAt, hf]
    exact if_neg (Nat.not_le.mpr hl)
  rw [step_of_running hr, hfetch]
  rfl

/-- Every row of the opcode map is fetched by its length and makes its instruction of its operand bytes (R78). -/
theorem fetchedAs_of_opForm {op : Byte} {f : OpForm} (hf : opForm op = some f) :
    FetchedAs op (formLength f) (buildInstr f) := by
  rintro s hr rfl
  exact ⟨step_of_opForm hr hf, step_of_opForm_past_top hr hf⟩

/-! ## LDI -/

/-- Settles O1: the row of 0x82 as it is fetched, and LDI's rule on a register that exists and on one that does not. -/
theorem ldiLoadsItsImmediate : Obligations.LdiLoadsItsImmediate :=
  ⟨fetchedAs_of_opForm (f := .ri .ldi) rfl, fun s _ imm hra => exec_of_ruleOf_ok (loadImmediate_of_lt hra imm s),
    fun s _ imm hra => exec_of_ruleOf_error (loadImmediate_of_ge hra imm s)⟩

/-! ## PUSH and then POP -/

/-- SP's two steps are inverse because both wrap modulo 256, and nothing else holds a trace of them (R100). -/
theorem incSp_decSp (s : State) : incSp (decSp s) = s := by
  have hsp : mod256 ((sp (decSp s)).toNat + 1) = s.regs[7] := by
    apply BitVec.eq_of_toNat_eq
    rw [mod256_toNat, ← topAddress, topAddress_decSp]
    have := s.regs[7].isLt
    omega
  rw [incSp, hsp, decSp_regs, Vector.set_set, Vector.set_getElem_self]
  rfl

/-- A register other than R7 is pushed as it was before the instruction (D23 concerns R7 alone). -/
theorem decSp_getElem_ne (s : State) {j : Nat} (hj : j < 8) (h7 : j ≠ 7) : (decSp s).regs[j] = s.regs[j] := by
  rw [decSp_regs, Vector.getElem_set_ne (by decide) hj h7.symm]

theorem exec_push {s : State} {x : Nat} (hx : x < 8) (h7 : x ≠ 7) :
    exec (.push x) s = .next (advancePc 2 (withMem (writeByte s.mem (topAddress (decSp s)) s.regs[x]) (decSp s))) := by
  rw [← decSp_getElem_ne s hx h7]
  exact exec_of_ruleOf_ok (pushRegister_of_lt hx s)

/-- With R7 excepted, POP's write of its register and its increment of SP do not meet. -/
theorem exec_pop {s : State} {y : Nat} (hy : y < 8) (h7 : y ≠ 7) :
    exec (.pop y) s = .next (advancePc 2 (setReg y hy (readByte s.mem (topAddress s)) (incSp s))) := by
  rw [← incSp_setReg hy _ s h7]
  exact exec_of_ruleOf_ok (popRegister_of_lt hy s)

/-- Settles O45: POP reads the byte PUSH stored under the decremented SP, and `incSp_decSp` gives SP back. -/
theorem pushThenPopRestores : Obligations.PushThenPopRestores := by
  intro s x y hx hy hx7 hy7
  have hcell : readByte (writeByte s.mem (topAddress (decSp s)) s.regs[x]) (topAddress (decSp s)) = s.regs[x] := by
    rw [readByte_writeByte, if_pos rfl]
  have hsp : (incSp (decSp s)).regs[7] = s.regs[7] := by rw [incSp_decSp]
  refine ⟨_, _, exec_push hx hx7, exec_pop hy hy7, ?popped, ?sp, ?cell⟩
  case popped => exact (Vector.getElem_set_self hy).trans hcell
  case sp => exact (setReg_regs_ne hy _ (incSp (decSp s)) (by decide) hy7).trans hsp
  case cell => rw [← topAddress_decSp]; exact hcell

end Sys2Proof.Machine

/-! # The ALU family (41_alu.md): the two-register shape read from the ALU's answer, the bitwise operations, MOD -/

namespace Sys2Proof.Machine

/-! ## The two-register shape, by what the ALU answers -/

section
variable {i : Instr} {f : Byte → Byte → AluResult} {ra rb : Nat} {s : State}

/-- An ALU instruction on two existing registers writes the ALU's value to the first and advances by three (R80). -/
theorem exec_aluBinary_ok {v : Byte} (hi : ruleOf i s = aluBinary f ra rb s) (ha : ra < 8) (hb : rb < 8)
    (hv : f s.regs[ra] s.regs[rb] = .ok v) :
    exec i s = .next { s with regs := s.regs.set ra v, pc := mod256 (s.pc.toNat + 3) } :=
  exec_of_ruleOf_ok (by rw [hi, aluBinary_of_lt f ha hb, hv]; rfl)

/-- A condition the ALU signals on two existing registers halts with its error kind (R172, D9). -/
theorem exec_aluBinary_error {c : AluCondition} (hi : ruleOf i s = aluBinary f ra rb s) (ha : ra < 8) (hb : rb < 8)
    (hc : f s.regs[ra] s.regs[rb] = .error c) : exec i s = .next (errorHalt (aluError c) s) :=
  exec_of_ruleOf_error (by rw [hi, aluBinary_of_lt f ha hb, hc])

/-- A register that does not exist is reported whatever the ALU would answer (D12). -/
theorem exec_aluBinary_missing (hi : ruleOf i s = aluBinary f ra rb s) (h : 8 ≤ ra ∨ 8 ≤ rb) :
    exec i s = .next (errorHalt .registerOutOfRange s) :=
  exec_of_ruleOf_error (hi.trans (aluBinary_of_ge f h s))

end

/-! ## AND, OR, XOR -/

/-- Settles O14: the row of 0xA8, and bit k of the word `&&&`. -/
theorem andIsBitwise : Obligations.AndIsBitwise :=
  ⟨fetchedAs_of_opForm (f := .rr .and) rfl,
    fun _ _ _ ha hb => ⟨_, fun _ _ => BitVec.getLsbD_and, exec_aluBinary_ok (f := aluAnd) rfl ha hb rfl⟩,
    fun _ _ _ h => exec_aluBinary_missing (f := aluAnd) rfl h⟩

/-- Settles O15: the row of 0xAA, and bit k of the word `|||`. -/
theorem orIsBitwise : Obligations.OrIsBitwise :=
  ⟨fetchedAs_of_opForm (f := .rr .or) rfl,
    fun _ _ _ ha hb => ⟨_, fun _ _ => BitVec.getLsbD_or, exec_aluBinary_ok (f := aluOr) rfl ha hb rfl⟩,
    fun _ _ _ h => exec_aluBinary_missing (f := aluOr) rfl h⟩

/-- Settles O16: the row of 0xAB, and bit k of the word `^^^`. -/
theorem xorIsBitwise : Obligations.XorIsBitwise :=
  ⟨fetchedAs_of_opForm (f := .rr .xor) rfl,
    fun _ _ _ ha hb => ⟨_, fun _ _ => BitVec.getLsbD_xor, exec_aluBinary_ok (f := aluXor) rfl ha hb rfl⟩,
    fun _ _ _ h => exec_aluBinary_missing (f := aluXor) rfl h⟩

/-! ## MOD -/

/-- The remainder is at most the dividend, so narrowing it to a byte loses nothing (R120). -/
theorem aluMod_of_ne_zero (va : Byte) {vb : Byte} (h : vb.toNat ≠ 0) : aluMod va vb = .ok (va % vb) := by
  have hlt : va.toNat % vb.toNat < 256 := (Nat.mod_le _ _).trans_lt va.isLt
  have hmod : mod256 (va.toNat % vb.toNat) = va % vb := by
    apply BitVec.eq_of_toNat_eq
    rw [mod256_toNat, Nat.mod_eq_of_lt hlt, BitVec.toNat_umod]
  rw [aluMod, if_neg h, hmod]

theorem aluMod_of_eq_zero (va : Byte) {vb : Byte} (h : vb.toNat = 0) : aluMod va vb = .error .divisionByZero :=
  if_pos h

/-- Settles O20: the row of 0xA4, and the ALU's two answers once both registers are read. -/
theorem modRemainderOrHalt : Obligations.ModRemainderOrHalt := by
  refine ⟨fetchedAs_of_opForm (f := .rr .mod) rfl, ?nonzero, ?zero, ?missing⟩
  case nonzero =>
    intro s ra rb ha hb hne
    exact ⟨_, BitVec.toNat_umod, exec_aluBinary_ok rfl ha hb (aluMod_of_ne_zero _ hne)⟩
  case zero =>
    intro s ra rb ha hb hz
    exact exec_aluBinary_error rfl ha hb (aluMod_of_eq_zero _ hz)
  case missing =>
    intro s ra rb h
    exact exec_aluBinary_missing (f := aluMod) rfl h

end Sys2Proof.Machine

/-! # The control family (42_control.md): RET wherever it is fetched, JMP, and a RET that meets what its CALL left -/

namespace Sys2Proof.Machine

/-! ## How an opcode without operand bytes is fetched -/

/-- Every one-byte row of the opcode map is fetched from its own cell, and the pc always names a cell (R78). -/
theorem fetchedAlone_of_opForm {op : Byte} {i : Instr} (hf : opForm op = some (.z i)) : FetchedAlone op i := by
  rintro s hr rfl
  exact step_of_opForm hr hf s.pc.isLt

/-! ## RET and JMP -/

/-- Settles O9: the row of 0x11 as it is fetched, and RET's rule, whose load from SP cannot fail (`exec_ret`). -/
theorem retPopsThePc : Obligations.RetPopsThePc :=
  ⟨fetchedAlone_of_opForm rfl, fun s => ⟨_, mod256_toNat _, exec_ret s⟩⟩

/-- Settles O11: the row of 0x54 as it is fetched, and JMP's rule on a register that exists and on one that does not. -/
theorem jmpSetsThePc : Obligations.JmpSetsThePc :=
  ⟨fetchedAs_of_opForm (f := .r .jmp) rfl, fun s _ hra => exec_of_ruleOf_ok (jumpTo_of_lt hra s),
    fun s _ hra => exec_of_ruleOf_error (jumpTo_of_ge hra s)⟩

/-! ## RET after its CALL -/

theorem step_ret {s : State} (hr : s.run = .running) (hop : opcodeAt s = 0x11) :
    step s = .next (withPc (readByte s.mem s.regs[7].toNat) (incSp (countCycle s))) :=
  (fetchedAlone_of_opForm rfl s hr hop).trans (exec_ret (countCycle s))

/-- What CALL leaves for its RET: SP decremented, and the byte it names the return address (R142, D7). -/
theorem step_call_leaves_return_address {s t : State} (hr : s.run = .running) (hl : s.pc.toNat + 2 ≤ 256)
    (hra : (operand1 s).toNat < 8) (hop : opcodeAt s = 0x50) (h : step s = .next t) :
    t.regs[7] = (decSp s).regs[7] ∧ readByte t.mem t.regs[7].toNat = mod256 (s.pc.toNat + 2) := by
  rw [step_call hr hl hra hop] at h
  cases h
  exact ⟨rfl, (readByte_writeByte ..).trans (if_pos rfl)⟩

/-- SP after an increment depends on SP alone. -/
theorem incSp_sp_congr {s t : State} (h : s.regs[7] = t.regs[7]) : (incSp s).regs[7] = (incSp t).regs[7] := by
  simp [sp, h]

/-- Settles O46: RET reads the return address where `step_call_leaves_return_address` puts it, and its increment of SP
undoes CALL's decrement (`incSp_decSp`). -/
theorem retResumesAfterCall : Obligations.RetResumesAfterCall := by
  intro s t u hr hop hl hra hcall hru hret hsp hcell
  obtain ⟨htop, haddr⟩ := step_call_leaves_return_address hr hl hra hop hcall
  refine ⟨_, step_ret hru hret, ?pc, ?sp⟩
  case pc => rw [withPc_pc, hcell, haddr, mod256_toNat]
  case sp =>
    calc (incSp (countCycle u)).regs[7]
        = (incSp (decSp s)).regs[7] := incSp_sp_congr (hsp.trans htop)
      _ = s.regs[7] := by rw [incSp_decSp]

end Sys2Proof.Machine

/-! # The output family (43_output.md): PRN, and which steps change the output -/

namespace Sys2Proof.Machine

/-- Settles O2: the row of 0x47 as it is fetched, and PRN's rule on a register that exists and on one that does not. -/
theorem prnPrintsItsRegister : Obligations.PrnPrintsItsRegister :=
  ⟨fetchedAs_of_opForm (f := .r .prn) rfl, fun s _ hra => exec_of_ruleOf_ok (printRegister_of_lt hra s),
    fun s _ hra => exec_of_ruleOf_error (printRegister_of_ge hra s)⟩

/-! ## Which steps change the output -/

/-- Halts included, an instruction keeps the output, or it is a PRN and appends its register (R160, D14). -/
theorem exec_out {i : Instr} {s t : State} (h : exec i s = .next t) :
    t.out = s.out ∨ ∃ (a : Nat) (ha : a < 8), i = .prn a ∧ t.out = s.out ++ [s.regs[a]] := by
  rcases exec_cases h with h | ⟨e, -, rfl⟩
  · exact ruleOf_ok_out h
  · exact .inl rfl

/-- A PRN is made by the row of 0x47 alone, and its register is the first operand byte. -/
theorem buildInstr_eq_prn {op b1 b2 : Byte} {f : OpForm} {a : Nat} (hf : opForm op = some f)
    (h : buildInstr f b1 b2 = .prn a) : op = 0x47 ∧ a = b1.toNat := by
  have hop : op = 0x47 := by rw [← opcodeOf_buildInstr hf b1 b2, h, opcodeOf]
  subst hop
  cases hf
  cases h
  exact ⟨rfl, rfl⟩

/-- A step keeps the output, or it is a PRN in Running that appends the register its operand byte names. -/
theorem step_out {s t : State} (h : step s = .next t) :
    t.out = s.out ∨ s.run = .running ∧ opcodeAt s = 0x47 ∧
      ∃ ha : (operand1 s).toNat < 8, t.out = s.out ++ [s.regs[(operand1 s).toNat]] := by
  cases hr : s.run with
  | halted =>
    rw [step_of_halted hr] at h
    cases h
    exact .inl rfl
  | running =>
    rcases step_cases hr h with ⟨-, rfl⟩ | ⟨f, hf, ⟨-, rfl⟩ | ⟨-, hx⟩⟩
    · exact .inl rfl
    · exact .inl rfl
    · rcases exec_out hx with ho | ⟨a, ha, hprn, ho⟩
      · exact .inl ho
      · obtain ⟨hop, rfl⟩ := buildInstr_eq_prn hf hprn
        exact .inr ⟨rfl, hop, ha, ho⟩

/-- Settles O35: `step_out` leaves only a PRN that appends its register. -/
theorem onlyPrnAppendsOutput : Obligations.OnlyPrnAppendsOutput :=
  fun _ _ h hne => (step_out h).resolve_left hne

end Sys2Proof.Machine

/-! # The exceptions family (60_exceptions.md): which step raises which error -/

namespace Sys2Proof.Machine

/-! ## The errors of a rule -/

theorem errorHalt_haltWith_iff {e e' : ErrorKind} {s : State} : ErrorHalt e (haltWith e' s) ↔ e = e' :=
  ⟨fun ⟨_, hcause⟩ => (Option.some.inj hcause).symm, fun he => ⟨rfl, congrArg some he.symm⟩⟩

/-- In Running, an instruction ends in an error halt exactly where its rule raised that error: a rule that raised nothing
runs on, or is HLT's and halts clean. -/
theorem exec_errorHalt_iff {i : Instr} {s t : State} {e : ErrorKind} (hr : s.run = .running) (h : exec i s = .next t) :
    ErrorHalt e t ↔ ruleOf i s = .error e := by
  rcases exec_cases h with hok | ⟨e', herr, rfl⟩
  · rw [hok]
    obtain ⟨-, ⟨-, rfl⟩ | ⟨-, hrun, -⟩⟩ := ruleOf_ok_run hok
    · simp
    · simp [hrun, hr]
  · simp [herr, errorHalt_haltWith_iff, eq_comm]

/-- A rule raises ArithmeticError exactly as MOD of two existing registers with a zero divisor (R172). -/
theorem ruleOf_arithmeticError_iff {i : Instr} {s : State} :
    ruleOf i s = .error .arithmeticError ↔
      ∃ (ra rb : Nat) (_ : ra < 8) (_ : rb < 8), i = .mod ra rb ∧ s.regs[rb].toNat = 0 := by
  constructor
  · intro h
    rcases ruleOf_error h with ⟨he, -⟩ | ⟨-, hmod⟩
    · cases he
    · exact hmod
  · rintro ⟨ra, rb, ha, hb, rfl, hz⟩
    rw [ruleOf, aluBinary_of_lt aluMod ha hb, aluMod_of_eq_zero _ hz]
    rfl

/-- A rule raises RegisterOutOfRange exactly where the table of R24 names a register that does not exist (R174). -/
theorem ruleOf_registerError_iff {i : Instr} {s : State} :
    ruleOf i s = .error .registerOutOfRange ↔ ∃ j, (writesReg i j ∨ readsReg s.flags.equal i j) ∧ 8 ≤ j := by
  constructor
  · intro h
    rcases ruleOf_error h with ⟨-, j, h8, hj⟩ | ⟨he, -⟩
    · exact ⟨j, hj.symm, h8⟩
    · cases he
  · rintro ⟨j, hj, h8⟩
    exact ruleOf_missing h8 hj.symm

/-- A rule raises no other error: the opcode check and the operand fetch alone give UnknownInstruction (R171) and
AddressOutOfRange (R173), SP always naming an address in memory. -/
theorem ruleOf_ne_error {e : ErrorKind} (hreg : e ≠ .registerOutOfRange) (harith : e ≠ .arithmeticError) (i : Instr)
    (s : State) : ruleOf i s ≠ .error e := by
  intro h
  rcases ruleOf_error h with ⟨he, -⟩ | ⟨he, -⟩
  · exact hreg he
  · exact harith he

/-! ## The errors of a step, in the order of R178 -/

/-- A step in Running ends in an error halt by the first check that fails: the opcode, the operand fetch, the rule. -/
theorem step_errorHalt_iff {s t : State} {e : ErrorKind} (hr : s.run = .running) (h : step s = .next t) :
    ErrorHalt e t ↔
      (opForm (opcodeAt s) = none ∧ e = .unknownInstruction) ∨
      ∃ f, opForm (opcodeAt s) = some f ∧
        ((256 < s.pc.toNat + formLength f ∧ e = .addressOutOfRange) ∨
          (s.pc.toNat + formLength f ≤ 256 ∧
            ruleOf (buildInstr f (operand1 s) (operand2 s)) (countCycle s) = .error e)) := by
  rcases step_cases hr h with ⟨hf, rfl⟩ | ⟨f, hf, ⟨hl, rfl⟩ | ⟨hl, hx⟩⟩ <;> rw [← opcodeAt] at hf
  · simp [hf, errorHalt_haltWith_iff]
  · simp [hf, hl, Nat.not_le.mpr hl, errorHalt_haltWith_iff]
  · rw [exec_errorHalt_iff (s := countCycle s) hr hx]
    simp [hf, hl, Nat.not_lt.mpr hl, operand1, operand2]

/-- A step in Running on a byte that is no opcode halts after counting the iteration, before any operand fetch (R178). -/
theorem step_of_opForm_eq_none {s : State} (hr : s.run = .running) (hf : opForm (opcodeAt s) = none) :
    step s = .next (errorHalt .unknownInstruction (counted s)) := by
  have hfetch : fetch (countCycle s) = .error .unknownInstruction := by
    rw [fetch_eq, countCycle_mem, countCycle_pc, ← opcodeAt, hf]
  rw [step_of_running hr, hfetch]
  rfl

/-- Settles O27: an opcode outside the map fails the first check, and on one of the map no later check gives that error. -/
theorem unknownOpcodeHalts : Obligations.UnknownOpcodeHalts := by
  refine fun s hr => ⟨fun hop => step_of_opForm_eq_none hr ((opForm_eq_none _).mpr hop), fun hop t h he => ?_⟩
  rcases (step_errorHalt_iff hr h).mp he with ⟨hf, -⟩ | ⟨f, -, ⟨-, he⟩ | ⟨-, hrule⟩⟩
  · exact (opForm_eq_none _).mp hf hop
  · cases he
  · exact ruleOf_ne_error (by decide) (by decide) _ _ hrule

/-! ## ArithmeticError -/

/-- A MOD is made by the row of 0xA4 alone, and its registers are the two operand bytes. -/
theorem buildInstr_eq_mod {op b1 b2 : Byte} {f : OpForm} {ra rb : Nat} (hf : opForm op = some f)
    (h : buildInstr f b1 b2 = .mod ra rb) : op = 0xA4 ∧ ra = b1.toNat ∧ rb = b2.toNat := by
  have hop : op = 0xA4 := by rw [← opcodeOf_buildInstr hf b1 b2, h, opcodeOf]
  subst hop
  cases hf
  cases h
  exact ⟨rfl, rfl, rfl⟩

/-- Settles O28: of the three checks only the rule gives this error, and only MOD's, which the row of 0xA4 makes. -/
theorem arithmeticErrorOnlyFromMod : Obligations.ArithmeticErrorOnlyFromMod := by
  intro s t hr h
  simp only [step_errorHalt_iff hr h, ruleOf_arithmeticError_iff, reduceCtorEq, and_false, false_or]
  constructor
  · rintro ⟨f, hf, hl, ra, rb, ha, hb, hi, hz⟩
    obtain ⟨hop, rfl, rfl⟩ := buildInstr_eq_mod hf hi
    rw [hop] at hf
    cases hf
    exact ⟨hop, hl, ha, hb, hz⟩
  · rintro ⟨hop, hl, ha, hb, hz⟩
    exact ⟨.rr .mod, by rw [hop]; rfl, hl, _, _, ha, hb, rfl, hz⟩

/-! ## AddressOutOfRange -/

theorem opLength_eq_two (op : Byte) : opLength op = some 2 ↔ op ∈ twoByteOpcodes := by
  revert op
  decide

theorem opLength_eq_three (op : Byte) : opLength op = some 3 ↔ op ∈ threeByteOpcodes := by
  revert op
  decide

/-- A step in Running ends with AddressOutOfRange exactly when the instruction's length reaches past the top (D8). -/
theorem step_addressError_iff {s t : State} (hr : s.run = .running) (h : step s = .next t) :
    ErrorHalt .addressOutOfRange t ↔ ∃ n, opLength (opcodeAt s) = some n ∧ n ≤ 3 ∧ 256 < s.pc.toNat + n := by
  rw [step_errorHalt_iff hr h]
  cases hf : opForm (opcodeAt s) with
  | none => simp [opLength, hf]
  | some f => simp [opLength, hf, ruleOf_ne_error, formLength_bounds f]

/-- Settles O29: a length of two or three bytes is a class of opcodes, and one byte always lies in memory. -/
theorem addressErrorOnlyFromFetch : Obligations.AddressErrorOnlyFromFetch := by
  intro s t hr h
  have hpc : s.pc.toNat < 256 := s.pc.isLt
  simp only [step_addressError_iff hr h, ← opLength_eq_two, ← opLength_eq_three]
  constructor
  · rintro ⟨n, hn, hle, hlt⟩
    obtain rfl | rfl : n = 2 ∨ n = 3 := by omega
    · exact .inl ⟨hn, by omega⟩
    · exact .inr ⟨hn, by omega⟩
  · rintro (⟨hn, hlt⟩ | ⟨hn, hlt⟩)
    · exact ⟨2, hn, by decide, by omega⟩
    · exact ⟨3, hn, by decide, by omega⟩

/-! ## RegisterOutOfRange -/

/-- The table of R24 read through the opcode map: which operand bytes of a row must name a register (D11). With the
operand bytes in memory, this is row by row what R174 says. -/
theorem buildInstr_missing_iff {op : Byte} {f : OpForm} (hf : opForm op = some f) (e : Bool) (b1 b2 : Byte) (a : Nat) :
    (a + formLength f ≤ 256 ∧
        ∃ j, (writesReg (buildInstr f b1 b2) j ∨ readsReg e (buildInstr f b1 b2) j) ∧ 8 ≤ j) ↔
      (op ∈ [0x82, 0x69] ∧ a ≤ 253 ∧ 8 ≤ b1.toNat) ∨
      (op ∈ rrOpcodes ∧ a ≤ 253 ∧ (8 ≤ b1.toNat ∨ 8 ≤ b2.toNat)) ∨
      (op ∈ [0x47, 0x45, 0x46, 0x50, 0x54] ∧ a ≤ 254 ∧ 8 ≤ b1.toNat) ∨
      (op = 0x55 ∧ e = true ∧ a ≤ 254 ∧ 8 ≤ b1.toNat) ∨
      (op = 0x56 ∧ e = false ∧ a ≤ 254 ∧ 8 ≤ b1.toNat) := by
  rcases opForm_cases hf with h | h | h | h | h | h | h | h | h | h | h | h | h | h | h | h | h | h | h | h <;>
    obtain ⟨rfl, rfl⟩ := h <;>
    simp [formLength, Config.notWidth, buildInstr, readsReg, writesReg, rrOpcodes, and_assoc, and_left_comm]

/-- A byte that is no opcode is in none of R174's classes. -/
theorem no_register_operand_of_opForm_eq_none {op : Byte} (hf : opForm op = none) :
    op ∉ [0x82, 0x69] ∧ op ∉ rrOpcodes ∧ op ∉ [0x47, 0x45, 0x46, 0x50, 0x54] ∧ op ≠ 0x55 ∧ op ≠ 0x56 := by
  revert op
  decide

/-- Settles O30: where the three checks leave it to the rule, `buildInstr_missing_iff`; a byte that is no opcode
fails the first. -/
theorem registerErrorOnlyWhenUsed : Obligations.RegisterErrorOnlyWhenUsed := by
  intro s t hr h
  simp only [step_errorHalt_iff hr h, ruleOf_registerError_iff, reduceCtorEq, and_false, false_or]
  cases hf : opForm (opcodeAt s) with
  | none =>
    obtain ⟨hri, hrr, hr5, hjeq, hjne⟩ := no_register_operand_of_opForm_eq_none hf
    simp only [hri, hrr, hr5, hjeq, hjne, reduceCtorEq, false_and, exists_false, or_false]
  | some f => simpa using buildInstr_missing_iff hf s.flags.equal (operand1 s) (operand2 s) s.pc.toNat

/-! ## UnsupportedOperation -/

/-- Settles O31: Halted keeps its cause; in Running an error halt is of another kind, HLT clears the cause, and any other
instruction keeps it. -/
theorem unsupportedOperationNeverRaised : Obligations.UnsupportedOperationNeverRaised := by
  intro s t h hs
  cases hr : s.run with
  | halted =>
    rw [step_of_halted hr] at h
    cases h
    exact hs
  | running =>
    rcases step_running_cases hr h with ⟨e, he, rfl⟩ | ⟨i, -, hx⟩
    · simpa using he
    · rcases exec_run hx with ⟨-, -, hcause⟩ | ⟨-, rfl⟩ | ⟨e, he, rfl⟩
      · rwa [hcause]
      · simp
      · simpa using he

end Sys2Proof.Machine

/-! # The reset and hazards family (70_reset_and_hazards.md): what every step answers and counts -/

namespace Sys2Proof.Machine

/-- R79 answers a next state on either side: the rule's writes, or the error halt. -/
theorem conclude_answers (s : State) (r : Except ErrorKind State) : ∃ t, conclude s r = .next t := by
  cases r with
  | ok t => exact ⟨t, conclude_ok s t⟩
  | error e => exact ⟨haltWith e s, conclude_error s e⟩

theorem step_answers (s : State) : ∃ t, step s = .next t := by
  cases hr : s.run with
  | halted => exact ⟨s, step_of_halted hr⟩
  | running =>
    rw [step_of_running hr]
    cases fetch (countCycle s) with
    | ok i => exact conclude_answers (countCycle s) (ruleOf i (countCycle s))
    | error e => exact ⟨haltWith e (countCycle s), rfl⟩

/-- An iteration is counted before its fetch (D15), and neither an error halt nor an instruction touches the count. -/
theorem step_running_cycles {s t : State} (hr : s.run = .running) (h : step s = .next t) :
    t.cycles = s.cycles + 1 := by
  rcases step_running_cases hr h with ⟨e, -, rfl⟩ | ⟨i, -, hx⟩
  · rfl
  · exact exec_keeps_cycles hx

theorem step_halted_eq {s t : State} (hr : s.run = .halted) (h : step s = .next t) : t = s := by
  rw [step_of_halted hr] at h
  cases h
  rfl

/-- Settles O38: every step answers, counts one iteration from Running, and is the identity in Halted (log 4). -/
theorem stepAnswersAndCounts : Obligations.StepAnswersAndCounts := by
  intro s
  obtain ⟨t, h⟩ := step_answers s
  exact ⟨t, h, fun hr => step_running_cycles hr h, fun hr => congrArg State.cycles (step_halted_eq hr h)⟩

end Sys2Proof.Machine

/-! # The statements left over from the families: the decoder against the encoder, the remaining instructions, how a
step halts and advances, the bounded run, canonical memory, the load and reset, and the status reads -/

namespace Sys2Proof.Machine

/-! ## The decoder and the encoder -/

theorem operandByte_toNat {r : Nat} (h : fitsOperand r = true) : (operandByte r).toNat = r := by
  rw [operandByte, mod256_toNat]
  exact Nat.mod_eq_of_lt (of_decide_eq_true h)

/-- Length decode gives every opcode the length of its encoding (R71, R74). -/
theorem opLength_opcodeOf (i : Instr) : opLength (opcodeOf i) = some (encode i).length := by
  cases i <;> rfl

/-- The row of a well-formed instruction's opcode makes that instruction of its operand bytes, whatever follows them. -/
theorem opForm_opcodeOf {i : Instr} (hi : i.WellFormed) (rest : List Byte) :
    ∃ f, opForm (opcodeOf i) = some f ∧ formLength f = (operandsOf i).length + 1 ∧
      buildInstr f ((operandsOf i ++ rest).getD 0 0) ((operandsOf i ++ rest).getD 1 0) = i := by
  cases i <;> refine ⟨_, rfl, rfl, ?_⟩ <;>
    simp_all [Instr.WellFormed, Instr.wf, operandsOf, buildInstr, operandByte_toNat]

/-- Settles O59: the row of the opcode is as long as the encoding and gives the instruction back (`opForm_opcodeOf`). -/
theorem decodeOfEncode : Obligations.DecodeOfEncode := by
  intro i rest hi
  obtain ⟨f, hf, hlen, hbuild⟩ := opForm_opcodeOf hi rest
  rw [encode, List.cons_append, decode_of_opForm hf (by simp [hlen]), hbuild, hlen, Nat.add_sub_cancel,
    List.drop_left]

/-- What the decoder answers comes from a row of the opcode map with all its operand bytes there. -/
theorem decode_inv {bs rest : List Byte} {i : Instr} (h : decode bs = .ok (i, rest)) :
    ∃ op ops f, bs = op :: ops ∧ opForm op = some f ∧ formLength f ≤ ops.length + 1 ∧
      i = buildInstr f (ops.getD 0 0) (ops.getD 1 0) ∧ rest = ops.drop (formLength f - 1) := by
  cases bs with
  | nil => cases h
  | cons op ops =>
    cases hf : opForm op with
    | none => simp [decode, hf] at h
    | some f =>
      by_cases hl : formLength f ≤ ops.length + 1
      · rw [decode_of_opForm hf hl] at h
        cases h
        exact ⟨op, ops, f, rfl, hf, hl, rfl, rfl⟩
      · simp [decode, hf, Nat.not_le.mp hl] at h

theorem buildInstr_wf {op : Byte} {f : OpForm} (hf : opForm op = some f) (b1 b2 : Byte) :
    (buildInstr f b1 b2).WellFormed := by
  have fits (b : Byte) : fitsOperand b.toNat = true := decide_eq_true b.isLt
  rcases opForm_cases hf with h | h | h | h | h | h | h | h | h | h | h | h | h | h | h | h | h | h | h | h <;>
    obtain ⟨rfl, rfl⟩ := h <;> simp [buildInstr, Instr.WellFormed, Instr.wf, fits]

/-- A row reads as many of the two bytes as its length leaves room for, and encodes the same bytes again. -/
theorem operandsOf_buildInstr {op : Byte} {f : OpForm} (hf : opForm op = some f) (b1 b2 : Byte) :
    operandsOf (buildInstr f b1 b2) = [b1, b2].take (formLength f - 1) := by
  rcases opForm_cases hf with h | h | h | h | h | h | h | h | h | h | h | h | h | h | h | h | h | h | h | h <;>
    obtain ⟨rfl, rfl⟩ := h <;> simp [buildInstr, operandsOf, operandByte, formLength, Config.notWidth]

/-- The first two bytes of a list, read with a default, are the list's own as far as it goes. -/
theorem take_getD_pair {l : List Byte} {n : Nat} (h2 : n ≤ 2) (hl : n ≤ l.length) :
    [l.getD 0 0, l.getD 1 0].take n = l.take n := by
  match n, l with
  | 0, _ => rfl
  | 1, a :: l => rfl
  | 2, a :: b :: l => rfl

/-- Settles O60: the row the decoder took makes a well-formed instruction, which encodes to the row's opcode and the
operand bytes taken from the list. -/
theorem encodeOfDecode : Obligations.EncodeOfDecode := by
  intro bs rest i h
  obtain ⟨op, ops, f, rfl, hf, hl, rfl, rfl⟩ := decode_inv h
  obtain ⟨-, h3⟩ := formLength_bounds f
  refine ⟨buildInstr_wf hf _ _, ?_⟩
  rw [encode, opcodeOf_buildInstr hf, operandsOf_buildInstr hf, take_getD_pair (by omega) (by omega), List.cons_append,
    List.take_append_drop]

/-- A row looks at no byte beyond its length. -/
theorem buildInstr_congr {f : OpForm} {b1 b2 c1 c2 : Byte} (h1 : 2 ≤ formLength f → b1 = c1)
    (h2 : 3 ≤ formLength f → b2 = c2) : buildInstr f b1 b2 = buildInstr f c1 c2 := by
  cases f with
  | z i => rfl
  | r mk => rw [h1 le_rfl]; rfl
  | ri mk | rr mk | rx mk => rw [h1 (Nat.le_succ 2), h2 le_rfl]

/-- Settles O57: the list holds one instruction and no more, so its bytes are those the fetch reads from the pc on. -/
theorem stepRunsDecodedInstruction : Obligations.StepRunsDecodedInstruction := by
  intro s i bs hr _ hdec hmemory hbytes
  obtain ⟨op, ops, f, rfl, hf, hl, rfl, hrest⟩ := decode_inv hdec
  have hlen : formLength f = ops.length + 1 := by
    have hdrop : ops.length ≤ formLength f - 1 := List.drop_eq_nil_iff.mp hrest.symm
    have := formLength_bounds f
    omega
  have hop : opForm (opcodeAt s) = some f := by rwa [opcodeAt, ← Nat.add_zero s.pc.toNat, hbytes 0 (by simp)]
  have hbuild : buildInstr f (operand1 s) (operand2 s) = buildInstr f (ops.getD 0 0) (ops.getD 1 0) := by
    refine buildInstr_congr (fun h => ?_) fun h => ?_
    · rw [operand1, hbytes 1 (by rw [List.length_cons]; omega), List.getD_eq_getElem _ _ (by omega)]
      rfl
    · rw [operand2, hbytes 2 (by rw [List.length_cons]; omega), List.getD_eq_getElem _ _ (by omega)]
      rfl
  rw [step_of_opForm hr hop (hlen ▸ hmemory), hbuild]
  rfl

/-! ## HLT, and the arithmetic and shift instructions -/

/-- Settles O3: the row of 0x01 as it is fetched, and HLT's rule, which raises nothing. -/
theorem hltHaltsClean : Obligations.HltHaltsClean :=
  ⟨fetchedAlone_of_opForm rfl, fun _ => exec_of_ruleOf_ok rfl⟩

/-- Settles O4: the row of 0xA2, and the product narrowed to a byte. -/
theorem mulWrapsModulo256 : Obligations.MulWrapsModulo256 :=
  ⟨fetchedAs_of_opForm (f := .rr .mul) rfl,
    fun _ _ _ ha hb => ⟨_, mod256_toNat _, exec_aluBinary_ok (f := aluMul) rfl ha hb rfl⟩,
    fun _ _ _ h => exec_aluBinary_missing (f := aluMul) rfl h⟩

/-- Settles O5: the row of 0xA0, and the sum narrowed to a byte. -/
theorem addWrapsModulo256 : Obligations.AddWrapsModulo256 :=
  ⟨fetchedAs_of_opForm (f := .rr .add) rfl,
    fun _ _ _ ha hb => ⟨_, mod256_toNat _, exec_aluBinary_ok (f := aluAdd) rfl ha hb rfl⟩,
    fun _ _ _ h => exec_aluBinary_missing (f := aluAdd) rfl h⟩

/-- A quotient of a byte is a byte. -/
theorem mod256_div_toNat (v : Byte) (d : Nat) : (mod256 (v.toNat / d)).toNat = v.toNat / d := by
  rw [mod256_toNat]
  exact Nat.mod_eq_of_lt ((Nat.div_le_self _ _).trans_lt v.isLt)

/-- Eight places to the left or more leave no bit of the byte (D4). -/
theorem mod256_mul_two_pow (n : Nat) {k : Nat} (h : 8 ≤ k) : mod256 (n * 2 ^ k) = 0 := by
  have hdvd : 256 ∣ n * 2 ^ k := Dvd.dvd.mul_left (pow_dvd_pow 2 h) n
  apply BitVec.eq_of_toNat_eq
  rw [mod256_toNat]
  exact Nat.mod_eq_zero_of_dvd hdvd

/-- Eight places to the right or more leave no bit of the byte (D4). -/
theorem mod256_div_two_pow (v : Byte) {k : Nat} (h : 8 ≤ k) : mod256 (v.toNat / 2 ^ k) = 0 := by
  have hlt : v.toNat < 2 ^ k := v.isLt.trans_le (Nat.pow_le_pow_right (by decide) h)
  rw [Nat.div_eq_of_lt hlt]
  rfl

/-- Settles O18: the row of 0xAC, and the product by a power of two narrowed to a byte. -/
theorem shlShiftsByWholeCount : Obligations.ShlShiftsByWholeCount :=
  ⟨fetchedAs_of_opForm (f := .rr .shl) rfl,
    fun _ _ _ ha hb => ⟨_, mod256_toNat _, mod256_mul_two_pow _, exec_aluBinary_ok (f := aluShl) rfl ha hb rfl⟩,
    fun _ _ _ h => exec_aluBinary_missing (f := aluShl) rfl h⟩

/-- Settles O19: the row of 0xAD, and the quotient by a power of two. -/
theorem shrShiftsByWholeCount : Obligations.ShrShiftsByWholeCount :=
  ⟨fetchedAs_of_opForm (f := .rr .shr) rfl,
    fun _ _ _ ha hb => ⟨_, mod256_div_toNat _ _, mod256_div_two_pow _, exec_aluBinary_ok (f := aluShr) rfl ha hb rfl⟩,
    fun _ _ _ h => exec_aluBinary_missing (f := aluShr) rfl h⟩

theorem aluNot_eq (v : Byte) : aluNot v = .ok (~~~v) := by
  have hcompl : mod256 (255 - v.toNat) = ~~~v := by
    apply BitVec.eq_of_toNat_eq
    rw [mod256_toNat, BitVec.toNat_not]
    exact Nat.mod_eq_of_lt (by omega)
  rw [aluNot, hcompl]

/-- Settles O17: the row of 0x69, and the word `~~~`, which is the complement bit by bit. -/
theorem notComplementsInPlace : Obligations.NotComplementsInPlace := by
  refine ⟨fetchedAs_of_opForm (f := .rx .not) rfl, fun s ra pad hra => ?_,
    fun s _ _ hra => exec_of_ruleOf_error (aluUnary_of_ge aluNot hra s)⟩
  refine ⟨~~~s.regs[ra], BitVec.toNat_not, fun k hk => ?_, exec_of_ruleOf_ok ?_⟩
  · rw [BitVec.getLsbD_not, decide_eq_true hk, Bool.true_and]
  · rw [ruleOf, aluUnary_of_lt aluNot hra, aluNot_eq]
    rfl

/-! ## The stack instructions -/

/-- PUSH and CALL read their register after the decrement of SP (D23). -/
theorem decSp_getElem (s : State) {j : Nat} (hj : j < 8) :
    (decSp s).regs[j] = if j = 7 then mod256 (s.regs[7].toNat + 255) else s.regs[j] := by
  split
  · next h7 =>
    subst h7
    exact Vector.getElem_set_self hj
  · next h7 => exact decSp_getElem_ne s hj h7

/-- Memory after a store at the decremented SP, read at any address. -/
theorem readByte_store_decSp (s : State) (v : Byte) (b : Nat) :
    readByte (writeByte s.mem (topAddress (decSp s)) v) b =
      if b = (mod256 (s.regs[7].toNat + 255)).toNat then v else readByte s.mem b := by
  rw [readByte_writeByte, topAddress_decSp, mod256_toNat]

/-- Settles O6: the row of 0x45, and PUSH's rule, whose one write goes to the decremented SP. -/
theorem pushStoresBelowSp : Obligations.PushStoresBelowSp := by
  refine ⟨fetchedAs_of_opForm (f := .r .push) rfl, fun s ra hra => ?_,
    fun s _ hra => exec_of_ruleOf_error (pushRegister_of_ge hra s)⟩
  refine ⟨_, _, mod256_toNat _, readByte_store_decSp s _, exec_of_ruleOf_ok ?_⟩
  rw [← decSp_getElem s hra]
  exact pushRegister_of_lt hra s

/-- Settles O8: the row of 0x50, and CALL's rule, which writes the return address as PUSH writes a register. -/
theorem callPushesReturnAddress : Obligations.CallPushesReturnAddress := by
  refine ⟨fetchedAs_of_opForm (f := .r .call) rfl, fun s ra hra => ?_, fun s ra hra => exec_of_ruleOf_error ?_⟩
  · refine ⟨_, _, mod256_toNat _, readByte_store_decSp s _, exec_of_ruleOf_ok ?_⟩
    rw [← decSp_getElem s hra, ruleOf, callRegister_eq, jumpTo_of_lt hra]
    rfl
  · rw [ruleOf, callRegister_eq, jumpTo_of_ge hra]

/-- Settles O7: the row of 0x46, and POP's rule, which increments SP as the write of its register left it. -/
theorem popLoadsFromSp : Obligations.PopLoadsFromSp := by
  refine ⟨fetchedAs_of_opForm (f := .r .pop) rfl, fun s ra hra => ?_,
    fun s _ hra => exec_of_ruleOf_error (popRegister_of_ge hra s)⟩
  refine ⟨_, _, rfl, ?_, exec_of_ruleOf_ok (popRegister_of_lt hra s)⟩
  rw [mod256_toNat, sp, withRegs_regs, Vector.getElem_set, apply_ite BitVec.toNat]
  rfl

/-! ## CMP and the branches -/

/-- Settles O10: the row of 0xA7, and the three comparisons of `compareFlags_eq`. -/
theorem cmpSetsFlagsUnsigned : Obligations.CmpSetsFlagsUnsigned := by
  refine ⟨fetchedAs_of_opForm (f := .rr .cmp) rfl, fun s ra rb ha hb => ?_,
    fun s _ _ h => exec_of_ruleOf_error (aluCompare_of_ge compareFlags h s)⟩
  refine ⟨compareFlags s.regs[ra] s.regs[rb], ?_, ?_, ?_, compareFlags_oneFlag _ _,
    exec_of_ruleOf_ok (aluCompare_of_lt compareFlags ha hb s)⟩
  · rw [compareFlags_eq, decide_eq_true_iff, BitVec.toNat_inj]
  · rw [compareFlags_eq, decide_eq_true_iff]
  · rw [compareFlags_eq, decide_eq_true_iff]

section
variable {s : State} {i : Instr} {ra : Nat}

/-- A branch not taken advances by two, whatever register it names (D11). -/
theorem exec_branch_not_taken (hi : ruleOf i s = branchIf false ra s) :
    exec i s = .next { s with pc := mod256 (s.pc.toNat + 2) } :=
  exec_of_ruleOf_ok hi

theorem exec_branch_taken (hi : ruleOf i s = branchIf true ra s) (hra : ra < 8) :
    exec i s = .next { s with pc := s.regs[ra] } :=
  exec_of_ruleOf_ok (hi.trans (jumpTo_of_lt hra s))

theorem exec_branch_missing (hi : ruleOf i s = branchIf true ra s) (hra : 8 ≤ ra) :
    exec i s = .next (errorHalt .registerOutOfRange s) :=
  exec_of_ruleOf_error (hi.trans (jumpTo_of_ge hra s))

end

/-- JEQ is the branch on FL.E (R146). -/
theorem ruleOf_jeq {s : State} {taken : Bool} (h : s.flags.equal = taken) (ra : Nat) :
    ruleOf (.jeq ra) s = branchIf taken ra s :=
  congrArg (branchIf · ra s) h

/-- JNE is the branch on FL.E clear (R147). -/
theorem ruleOf_jne {s : State} {taken : Bool} (h : s.flags.equal = !taken) (ra : Nat) :
    ruleOf (.jne ra) s = branchIf taken ra s := by
  have htaken : jneTaken s = taken := by rw [jneTaken, h, Bool.not_not]
  exact congrArg (branchIf · ra s) htaken

/-- Settles O12: the row of 0x55, and the branch taken when FL.E is set. -/
theorem jeqJumpsWhenEqual : Obligations.JeqJumpsWhenEqual :=
  ⟨fetchedAs_of_opForm (f := .r .jeq) rfl, fun _ _ hra he => exec_branch_taken (ruleOf_jeq he _) hra,
    fun _ _ he => exec_branch_not_taken (ruleOf_jeq he _), fun _ _ hra he => exec_branch_missing (ruleOf_jeq he _) hra⟩

/-- Settles O13: the row of 0x56, and the branch taken when FL.E is clear. -/
theorem jneJumpsWhenNotEqual : Obligations.JneJumpsWhenNotEqual :=
  ⟨fetchedAs_of_opForm (f := .r .jne) rfl, fun _ _ hra he => exec_branch_taken (ruleOf_jne he _) hra,
    fun _ _ he => exec_branch_not_taken (ruleOf_jne he _), fun _ _ hra he => exec_branch_missing (ruleOf_jne he _) hra⟩

/-- Settles O47: CMP leaves FL.E as the equality of its registers, and each branch goes by FL.E. -/
theorem branchesFollowCmp : Obligations.BranchesFollowCmp := by
  intro s a b c ha hb hc
  refine ⟨_, exec_of_ruleOf_ok (aluCompare_of_lt compareFlags ha hb s), ?_⟩
  by_cases heq : s.regs[a] = s.regs[b]
  · have he : (compareFlags s.regs[a] s.regs[b]).equal = true := by simp [compareFlags_eq, heq]
    simp only [if_pos heq]
    exact ⟨exec_branch_taken (ruleOf_jeq he c) hc, exec_branch_not_taken (ruleOf_jne he c)⟩
  · have he : (compareFlags s.regs[a] s.regs[b]).equal = false := by simp [compareFlags_eq, heq]
    simp only [if_neg heq]
    exact ⟨exec_branch_not_taken (ruleOf_jeq he c), exec_branch_taken (ruleOf_jne he c) hc⟩

/-! ## How a step leaves Running, and where it leaves the pc -/

theorem opcodeOf_eq_hlt_iff {i : Instr} : opcodeOf i = 0x01 ↔ i = .hlt := by
  cases i <;> simp [opcodeOf]

/-- A step in Running halts by an error, and precisely (D9); or is HLT and halts clean; or runs on with the cause it
had. -/
theorem step_running_ends {s t : State} (hr : s.run = .running) (h : step s = .next t) :
    (∃ e, t = errorHalt e (counted s)) ∨ (opcodeAt s = 0x01 ∧ t = haltClean (countCycle s)) ∨
      opcodeAt s ≠ 0x01 ∧ t.run = .running ∧ t.cause = s.cause := by
  rcases step_running_cases hr h with ⟨e, -, rfl⟩ | ⟨i, hop, hx⟩
  · exact .inl ⟨e, rfl⟩
  · rcases exec_run hx with ⟨hne, hrun, hcause⟩ | ⟨rfl, rfl⟩ | ⟨e, -, rfl⟩
    · exact .inr (.inr ⟨fun h1 => hne (opcodeOf_eq_hlt_iff.mp (hop.trans h1)), hrun.trans hr, hcause⟩)
    · exact .inr (.inl ⟨hop.symm, rfl⟩)
    · exact .inl ⟨e, rfl⟩

/-- Settles O32: of the three ends of `step_running_ends` only the error halt records a cause. -/
theorem errorHaltIsPrecise : Obligations.ErrorHaltIsPrecise := by
  intro s t e hr hnone h hcause
  rcases step_running_ends hr h with ⟨e', rfl⟩ | ⟨-, rfl⟩ | ⟨-, -, hkept⟩
  · cases hcause
    exact ⟨rfl, rfl⟩
  · cases hcause
  · rw [hkept, hnone] at hcause
    cases hcause

/-- Settles O33: the three ends of `step_running_ends`, each on one side of the equivalence. -/
theorem haltsOnlyByHltOrError : Obligations.HaltsOnlyByHltOrError := by
  intro s t hr hnone h
  rcases step_running_ends hr h with ⟨e, rfl⟩ | ⟨hop, rfl⟩ | ⟨hop, hrun, hkept⟩
  · exact iff_of_true rfl (.inr ⟨e, rfl⟩)
  · exact iff_of_true rfl (.inl hop)
  · refine iff_of_false (by simp [hrun]) ?_
    rw [hkept, hnone]
    simpa using hop

/-- A rule that raised nothing advances the pc by the length of its instruction, unless it writes the pc or halts
(R80). -/
theorem ruleOf_ok_pc {i : Instr} {s t : State} (h : ruleOf i s = .ok t) (hi : opcodeOf i ∉ noAdvanceOpcodes) :
    t.pc = nextPc (encode i).length s := by
  cases i with
  | ldi ra imm => obtain ⟨_, rfl⟩ := loadImmediate_inv h; rfl
  | prn ra => obtain ⟨_, rfl⟩ := printRegister_inv h; rfl
  | push ra => obtain ⟨_, rfl⟩ := pushRegister_inv h; rfl
  | pop ra => obtain ⟨_, rfl⟩ := popRegister_inv h; rfl
  | cmp ra rb => obtain ⟨_, _, rfl⟩ := aluCompare_inv h; rfl
  | not ra pad => obtain ⟨_, _, _, rfl⟩ := aluUnary_inv h; rfl
  | hlt | ret | call ra | jmp ra | jeq ra | jne ra => simp [opcodeOf, noAdvanceOpcodes] at hi
  | _ ra rb => obtain ⟨_, _, _, _, rfl⟩ := aluBinary_inv h; rfl

/-- A step that runs on advances the pc by the length its opcode has, modulo 256 (D7), unless it is a transfer. -/
theorem step_pc_advances {s t : State} {n : Nat} (hr : s.run = .running) (h : step s = .next t)
    (ht : t.run = .running) (hn : opLength (opcodeAt s) = some n) (hop : opcodeAt s ∉ noAdvanceOpcodes) :
    t.pc.toNat = (s.pc.toNat + n) % 256 := by
  rcases step_running_cases hr h with ⟨e, -, rfl⟩ | ⟨i, hi, hx⟩
  · cases ht
  · rcases exec_cases hx with hok | ⟨e, -, rfl⟩
    · rw [← hi, opLength_opcodeOf, Option.some_inj] at hn
      rw [ruleOf_ok_pc hok (hi ▸ hop), hn, nextPc, mod256_toNat]
      rfl
    · cases ht

/-- Settles O37: both halts of `step_running_ends` keep the pc, and a step that runs on goes by `step_pc_advances`. -/
theorem pcHoldsOrAdvances : Obligations.PcHoldsOrAdvances := by
  intro s t hr h
  refine ⟨fun hhalt => ?_, fun ht hop => step_pc_advances hr h ht ((opLength_eq_two _).mpr hop), fun ht hop => ?_⟩
  · rcases step_running_ends hr h with ⟨e, rfl⟩ | ⟨-, rfl⟩ | ⟨-, hrun, -⟩
    · rfl
    · rfl
    · rw [hrun] at hhalt
      cases hhalt
  · have hdisjoint : ∀ op ∈ threeByteOpcodes, op ∉ noAdvanceOpcodes := by decide
    exact step_pc_advances hr h ht ((opLength_eq_three _).mpr hop) (hdisjoint _ hop)

/-! ## Runs: Halted is terminal, and a bounded run ends -/

theorem run_succ_of_step {s t : State} (h : step s = .next t) (k : Nat) :
    Host.Core.run core (k + 1) s = Host.Core.run core k t := by
  have hcore : core.step s = .next t := h
  simp only [Host.Core.run, hcore]

/-- Settles O39: by induction on the number of steps, each the identity in Halted (log 4). -/
theorem haltedIsTerminal : Obligations.HaltedIsTerminal := by
  intro n s hs
  induction n with
  | zero => rfl
  | succ n ih => rw [run_succ_of_step (step_of_halted hs), ih]

theorem runEnd_of_halted {s : State} (h : s.run = .halted) (bound : Option Nat) :
    runEnd bound s = some (.halted s.cause) := by
  rw [runEnd, h]

theorem runEnd_of_running {s : State} (h : s.run = .running) (n : Nat) :
    runEnd (some n) s = if n = s.cycles then some .cycleLimitReached else none := by
  simp only [runEnd, h, Option.some_inj]

theorem runLoop_of_runEnd {bound : Option Nat} {s : State} {e : RunEnd} (h : runEnd bound s = some e) (fuel : Nat) :
    runLoop bound fuel s = .next (s, some e) := by
  cases fuel with
  | zero => rw [runLoop, h]
  | succ fuel => rw [runLoop, h]

theorem runLoop_succ_of_step {bound : Option Nat} {s t : State} (hend : runEnd bound s = none)
    (hstep : step s = .next t) (fuel : Nat) : runLoop bound (fuel + 1) s = runLoop bound fuel t := by
  rw [runLoop, hend, hstep]

theorem running_of_runEnd_none {n : Nat} {s : State} (h : runEnd (some n) s = none) :
    s.run = .running ∧ n ≠ s.cycles := by
  cases hr : s.run with
  | halted =>
    rw [runEnd_of_halted hr] at h
    cases h
  | running =>
    rw [runEnd_of_running hr] at h
    exact ⟨rfl, fun hn => by simp [hn] at h⟩

/-- With as many steps as the count leaves to the bound, the loop reaches an end of the run, by as many steps of the
machine as it counts iterations (D15). -/
theorem runLoop_ends {n fuel : Nat} {s : State} (hfuel : s.cycles + fuel = n) :
    ∃ (k : Nat) (t : State) (e : RunEnd), k ≤ fuel ∧ t.cycles = s.cycles + k ∧ Host.Core.run core k s = .next t ∧
      runEnd (some n) t = some e ∧ runLoop (some n) fuel s = .next (t, some e) := by
  induction fuel generalizing s with
  | zero =>
    cases he : runEnd (some n) s with
    | some e => exact ⟨0, s, e, le_rfl, rfl, rfl, he, runLoop_of_runEnd he 0⟩
    | none => exact absurd hfuel.symm (running_of_runEnd_none he).2
  | succ fuel ih =>
    cases he : runEnd (some n) s with
    | some e => exact ⟨0, s, e, Nat.zero_le _, rfl, rfl, he, runLoop_of_runEnd he _⟩
    | none =>
      obtain ⟨hr, -⟩ := running_of_runEnd_none he
      obtain ⟨u, hu⟩ := step_answers s
      have hcount : u.cycles = s.cycles + 1 := step_running_cycles hr hu
      obtain ⟨k, t, e, hk, hcycles, hrun, hend, hloop⟩ := ih (s := u) (by omega)
      refine ⟨k + 1, t, e, by omega, by omega, ?_, hend, ?_⟩
      · rw [run_succ_of_step hu, hrun]
      · rw [runLoop_succ_of_step he hu, hloop]

/-- What the end of a run reports is so: Running with the count at the bound, or Halted with that cause. -/
theorem runEnd_reports {n : Nat} {t : State} {e : RunEnd} (h : runEnd (some n) t = some e) :
    (e = .cycleLimitReached → t.run = .running ∧ t.cycles = n) ∧
      ∀ c, e = .halted c → t.run = .halted ∧ t.cause = c := by
  cases hr : t.run with
  | halted =>
    rw [runEnd_of_halted hr] at h
    cases h
    simp
  | running =>
    rw [runEnd_of_running hr] at h
    split at h
    · next hn =>
      cases h
      simp [hn]
    · cases h

/-- Settles O54: `runLoop_ends` with the steps left to the bound, and what its end reports. -/
theorem boundedRunEnds : Obligations.BoundedRunEnds := by
  refine ⟨fun n s hle => ?_, fun n s hs => runLoop_of_runEnd (runEnd_of_halted hs _) _⟩
  obtain ⟨k, t, e, hk, hcycles, hrun, he, hloop⟩ := runLoop_ends (Nat.add_sub_of_le hle)
  refine ⟨t, e, hloop, by omega, by omega, ?_, runEnd_reports he⟩
  rwa [hcycles, Nat.add_sub_cancel_left]

/-! ## Memory, the load and reset -/

/-- Settles O50: the read law of the one write, and the range check. -/
theorem memWriteStoresModulo256 : Obligations.MemWriteStoresModulo256 := by
  refine ⟨fun a v s ha => ⟨_, memWrite_of_lt (Nat.lt_succ_of_le ha) v s, fun b => ?_, rfl⟩,
    fun a v s ha => memWrite_of_ge ha v s⟩
  rw [withMem_mem, readByte_writeByte, apply_ite BitVec.toNat, mod256_toNat]

/-- Below its first address a canonical memory reads 0. -/
theorem readByte_eq_zero_of_lt {m : Memory} {a : Nat} (h : ∀ c ∈ m, a < c.1) : readByte m a = 0 := by
  induction m with
  | nil => rfl
  | cons c m ih =>
    obtain ⟨hc, hm⟩ := List.forall_mem_cons.mp h
    exact (if_neg hc.ne').trans (ih hm)

theorem readByte_cons_self (c : Host.Cell) (m : Memory) : readByte (c :: m) c.1 = c.2 := if_pos rfl

/-- A memory does not read like one whose first cell, not 0, lies below all its own. -/
theorem readByte_cons_ne_of_lt {c : Host.Cell} {m n : Memory} (hc : c.2 ≠ 0) (hn : ∀ d ∈ n, c.1 < d.1) :
    readByte (c :: m) c.1 ≠ readByte n c.1 := by
  rwa [readByte_cons_self, readByte_eq_zero_of_lt hn]

theorem forall_lt_of_lt_head {a : Nat} {c : Host.Cell} {m : Memory} (hc : a < c.1) (hm : ∀ d ∈ m, c.1 < d.1) :
    ∀ d ∈ c :: m, a < d.1 :=
  List.forall_mem_cons.mpr ⟨hc, fun d hd => hc.trans (hm d hd)⟩

theorem wf_cons {c : Host.Cell} {m : Memory} (h : Memory.wf (c :: m)) :
    (∀ d ∈ m, c.1 < d.1) ∧ c.2 ≠ 0 ∧ Memory.wf m := by
  obtain ⟨hsorted, hcells⟩ := h
  obtain ⟨hlt, hsorted⟩ := List.pairwise_cons.mp hsorted
  obtain ⟨⟨-, hne⟩, hcells⟩ := List.forall_mem_cons.mp hcells
  exact ⟨hlt, hne, hsorted, hcells⟩

/-- Behind equal first cells, canonical memories that read alike still read alike. -/
theorem readByte_tail_eq {c : Host.Cell} {m n : Memory} (hm : ∀ d ∈ m, c.1 < d.1) (hn : ∀ d ∈ n, c.1 < d.1)
    (h : ∀ a, readByte (c :: m) a = readByte (c :: n) a) (a : Nat) : readByte m a = readByte n a := by
  by_cases ha : c.1 = a
  · subst ha
    rw [readByte_eq_zero_of_lt hm, readByte_eq_zero_of_lt hn]
  · simpa [readByte, ha] using h a

/-- Settles O51: by induction on both lists; at unequal first addresses the lower one reads nonzero in its own memory
and 0 in the other. -/
theorem canonicalMemoryIsUnique : Obligations.CanonicalMemoryIsUnique := by
  intro m n hm hn h
  induction m generalizing n with
  | nil =>
    cases n with
    | nil => rfl
    | cons d n =>
      obtain ⟨-, hd, -⟩ := wf_cons hn
      exact absurd (h d.1).symm (readByte_cons_ne_of_lt hd (by simp))
  | cons c m ih =>
    obtain ⟨hcm, hc, hm'⟩ := wf_cons hm
    cases n with
    | nil => exact absurd (h c.1) (readByte_cons_ne_of_lt hc (by simp))
    | cons d n =>
      obtain ⟨hdn, hd, hn'⟩ := wf_cons hn
      rcases lt_trichotomy c.1 d.1 with hlt | heq | hlt
      · exact absurd (h c.1) (readByte_cons_ne_of_lt hc (forall_lt_of_lt_head hlt hdn))
      · have hcd : c = d := Prod.ext heq <| by
          rw [← readByte_cons_self c m, h, heq, readByte_cons_self]
        subst hcd
        rw [ih n hm' hn' (readByte_tail_eq hcm hdn h)]
      · exact absurd (h d.1).symm (readByte_cons_ne_of_lt hd (forall_lt_of_lt_head hlt hcm))

/-- An image leaves every address outside it as it was. -/
theorem readByte_writeImage_outside {b : Nat} (vs : List Nat) :
    ∀ (m : Memory) (a : Nat), b < a ∨ a + vs.length ≤ b → readByte (writeImage m a vs) b = readByte m b := by
  induction vs with
  | nil => exact fun _ _ _ => rfl
  | cons v vs ih =>
    intro m a hb
    rw [List.length_cons] at hb
    rw [writeImage, ih _ _ (by omega), readByte_writeByte, if_neg (by omega)]

/-- Value k of an image lies k cells above its first address, reduced modulo 256. -/
theorem readByte_writeImage_at (vs : List Nat) :
    ∀ (m : Memory) (a k : Nat) (hk : k < vs.length), readByte (writeImage m a vs) (a + k) = mod256 vs[k] := by
  induction vs with
  | nil => exact fun _ _ _ hk => absurd hk (Nat.not_lt_zero _)
  | cons v vs ih =>
    intro m a k hk
    cases k with
    | zero =>
      rw [writeImage, readByte_writeImage_outside vs _ _ (by omega), readByte_writeByte, if_pos (Nat.add_zero a)]
      rfl
    | succ k =>
      have haddr : a + (k + 1) = a + 1 + k := by omega
      rw [writeImage, haddr]
      exact ih _ _ k (Nat.lt_of_succ_lt_succ hk)

theorem loadImage_reset_of_le {image : List Nat} (h : image.length ≤ 256) :
    loadImage image State.reset = .ok (withMem (writeImage [] 0 image) State.reset) := by
  rw [loadImage, if_pos rfl, if_pos h]
  rfl

theorem loadImage_reset_of_gt {image : List Nat} (h : 256 < image.length) :
    loadImage image State.reset = .error .imageTooLong := by
  rw [loadImage, if_pos rfl, if_neg (Nat.not_le.mpr h)]

/-- Settles O53: the two read laws of the image written from address 0. -/
theorem loadPlacesTheImage : Obligations.LoadPlacesTheImage := by
  refine ⟨fun image hlen => ⟨_, loadImage_reset_of_le hlen, fun a ha => ?_, fun a ha => ?_, rfl⟩,
    fun image hlen => loadImage_reset_of_gt hlen⟩
  · rw [withMem_mem, ← mod256_toNat, ← readByte_writeImage_at image [] 0 a ha, Nat.zero_add]
  · exact readByte_writeImage_outside image [] 0 (.inr (by omega))

/-- Settles O40: memory lists no cell, no flag is set, and there is no cause. -/
theorem resetMeetsInv : Obligations.ResetMeetsInv :=
  ⟨reset_mem_wf, .inl rfl, fun _ => rfl, by decide⟩

/-- The invariant speaks of memory's form apart from the rest of the state. -/
theorem withMem_inv {s : State} {m : Memory} (hs : Inv s) (hm : Memory.wf m) : Inv (withMem m s) := by
  obtain ⟨-, hrest⟩ := hs
  exact ⟨hm, hrest⟩

/-- Settles O41: an accepted image ends inside memory, so writing it keeps the canonical form. -/
theorem loadMeetsInv : Obligations.LoadMeetsInv := by
  intro image t h
  by_cases hlen : image.length ≤ 256
  · rw [loadImage_reset_of_le hlen] at h
    cases h
    exact withMem_inv resetMeetsInv (writeImage_wf image reset_mem_wf 0 (by omega))
  · rw [loadImage_reset_of_gt (Nat.not_le.mp hlen)] at h
    cases h

/-- Settles O55: each field of the reset state at its value. -/
theorem resetLeavesItsValues : Obligations.ResetLeavesItsValues :=
  ⟨readByte_nil, rfl, rfl, rfl, rfl, by decide, rfl, rfl, rfl⟩

/-! ## The status reads -/

/-- R32's table read backwards; the codes 6 and 7 name no cause. -/
def causeOfCode (code : BitVec 3) : Option ErrorKind :=
  match code.toNat with
  | 1 => some .unknownInstruction
  | 2 => some .arithmeticError
  | 3 => some .addressOutOfRange
  | 4 => some .registerOutOfRange
  | 5 => some .unsupportedOperation
  | _ => none

theorem causeOfCode_causeCode (c : Option ErrorKind) : causeOfCode (causeCode c) = c := by
  rcases c with _ | e
  · rfl
  · cases e <;> rfl

theorem causeCode_le_five (c : Option ErrorKind) : (causeCode c).toNat ≤ 5 := by
  rcases c with _ | e
  · decide
  · cases e <;> decide

/-- The layout of R30, over the eight values the three flags can take. -/
theorem flagsByte_bits (f : Flags) :
    (flagsByte f).getLsbD 0 = f.equal ∧ (flagsByte f).getLsbD 1 = f.greater ∧ (flagsByte f).getLsbD 2 = f.less ∧
      (flagsByte f).toNat < 8 := by
  obtain ⟨e, g, l⟩ := f
  revert e g l
  decide

/-- Settles O56: the bits of the flags byte, and the codes of the causes, which can be read backwards. -/
theorem statusReadsAreFaithful : Obligations.StatusReadsAreFaithful :=
  ⟨flagsByte_bits, ⟨rfl, rfl, rfl, rfl, rfl, rfl⟩,
    fun _ _ h => Function.LeftInverse.injective causeOfCode_causeCode h, causeCode_le_five⟩

end Sys2Proof.Machine
